-- ==== Sys2Proof/Word.lean ====
section
/-! DEFINITION. Variants, their word widths, bytes and words, and the eight-word record the accumulator and the
working registers share (00_scope.md R2, R9, R13). -/

namespace Sys2Proof

/-- The two algorithms of the core; no others exist (00_scope.md R2). -/
inductive Variant where
  | sha256
  | sha512
deriving DecidableEq, Repr

/-- Word width `w` in bits (00_scope.md R9). -/
@[reducible] def Variant.w : Variant → Nat
  | .sha256 => 32
  | .sha512 => 64

/-- Word width `wb` in bytes, `w / 8` (00_scope.md R9). -/
def Variant.wb : Variant → Nat
  | .sha256 => 4
  | .sha512 => 8

abbrev Byte := BitVec 8

/-- A word of variant `v`: unsigned, arithmetic modulo `2^w` (00_scope.md R13, 40_helpers.md R110). -/
abbrev Word (v : Variant) := BitVec v.w

/-- Eight words. As the accumulator, `a` is `H[0]` and `h` is `H[7]` (10_state.md R22); as the working registers they
are `a..h`, the source's registers 0 to 7 (10_state.md R28). -/
structure Words8 (w : Nat) where
  a : BitVec w
  b : BitVec w
  c : BitVec w
  d : BitVec w
  e : BitVec w
  f : BitVec w
  g : BitVec w
  h : BitVec w
deriving DecidableEq, Repr

/-- The eight words in index order, `H[0]` first. -/
def Words8.toList {w : Nat} (x : Words8 w) : List (BitVec w) :=
  [x.a, x.b, x.c, x.d, x.e, x.f, x.g, x.h]

end Sys2Proof
end

