-- ==== Sys2Proof/Machine/Params.lean ====
section
/-! DEFINITION. The per-variant parameters of 00_scope.md R9, less the word width (Word.lean). -/

namespace Sys2Proof.Machine

/-- `B`, block size in bytes. -/
def blockBytes : Variant → Nat
  | .sha256 => 64
  | .sha512 => 128

/-- `L`, length field in bytes. -/
def lengthBytes : Variant → Nat
  | .sha256 => 8
  | .sha512 => 16

/-- `R`, the number of rounds and of schedule words (90_conflicts.md C2). -/
def rounds : Variant → Nat
  | .sha256 => 64
  | .sha512 => 80

/-- `D`, digest size in bytes. -/
def digestBytes : Variant → Nat
  | .sha256 => 32
  | .sha512 => 64

end Sys2Proof.Machine
end

