-- ==== Sys2Proof/Machine/Helpers.lean ====
section
/-! DEFINITION. The word-width arithmetic helpers (40_helpers.md R100-R112). `+`, AND, OR, XOR and NOT on words are
`BitVec`'s own (R110, R112). -/

namespace Sys2Proof.Machine

/-- `ROTR_w(n, x)`, used with `0 < n < w` (40_helpers.md R101). -/
def rotr {w : Nat} (n : Nat) (x : BitVec w) : BitVec w := (x >>> n) ||| (x <<< (w - n))

/-- `SHR_w(n, x)`, used with `0 < n < w` (40_helpers.md R102). -/
def shr {w : Nat} (n : Nat) (x : BitVec w) : BitVec w := x >>> n

/-- `Ch(x, y, z)` (40_helpers.md R103). -/
def ch {w : Nat} (x y z : BitVec w) : BitVec w := (x &&& y) ^^^ (~~~x &&& z)

/-- `Maj(x, y, z)` (40_helpers.md R104). -/
def maj {w : Nat} (x y z : BitVec w) : BitVec w := (x &&& y) ^^^ (x &&& z) ^^^ (y &&& z)

/-- `Sigma0(x)`, the source's sum0 (40_helpers.md R105). -/
def bigSigma0 : (v : Variant) → Word v → Word v
  | .sha256, x => rotr 2 x ^^^ rotr 13 x ^^^ rotr 22 x
  | .sha512, x => rotr 28 x ^^^ rotr 34 x ^^^ rotr 39 x

/-- `Sigma1(x)`, the source's sum1 (40_helpers.md R106). -/
def bigSigma1 : (v : Variant) → Word v → Word v
  | .sha256, x => rotr 6 x ^^^ rotr 11 x ^^^ rotr 25 x
  | .sha512, x => rotr 14 x ^^^ rotr 18 x ^^^ rotr 41 x

/-- `sigma0(x)`, the source's smallSigma0 (40_helpers.md R107). -/
def smallSigma0 : (v : Variant) → Word v → Word v
  | .sha256, x => rotr 7 x ^^^ rotr 18 x ^^^ shr 3 x
  | .sha512, x => rotr 1 x ^^^ rotr 8 x ^^^ shr 7 x

/-- `sigma1(x)`, the source's smallSigma1 (40_helpers.md R108). -/
def smallSigma1 : (v : Variant) → Word v → Word v
  | .sha256, x => rotr 17 x ^^^ rotr 19 x ^^^ shr 10 x
  | .sha512, x => rotr 19 x ^^^ rotr 61 x ^^^ shr 6 x

end Sys2Proof.Machine
end

