-- ==== Sys2Proof/Config.lean ====
section
/-! DEFINITION. The parameters the spec fixes for every instance (00_scope.md R10, R11). The two it leaves open,
`N_INSTANCES` and `CMD_CHANNEL_BINDING`, are arguments of the platform (Machine/Platform.lean). The spec leaves no
value of an instruction open, so there is no free value here. -/

namespace Sys2Proof

/-- `MAX_COUNT`: the largest payload of one UPDATE, in bytes (00_scope.md R11, 30_encoding.md R76). -/
def Config.maxCount : Nat := 65535

/-- The largest value of the 64-bit counter (00_scope.md R10, 44_commands.md R202). -/
def Config.counterMax : Nat := 2 ^ 64 - 1

end Sys2Proof
end

