-- ==== Sys2Proof/Syntax.lean ====
section
/-! DEFINITION. The commands of the core, one constructor per row of spec/opcode_table.json, and the transaction that
carries one (30_encoding.md R70, R72). -/

namespace Sys2Proof

/-- A command with its operands. UPDATE carries its payload, which fixes COUNT (30_encoding.md R80, R81). -/
inductive Instr where
  /-- INIT, OP 0x1 with the variant bit V (44_commands.md R201). -/
  | init (v : Variant)
  /-- UPDATE, OP 0x2 with COUNT payload bytes (44_commands.md R202). -/
  | update (payload : List Byte)
  /-- FINALIZE, OP 0x3 (44_commands.md R205). -/
  | finalize
  /-- READ_DIGEST, OP 0x4 (44_commands.md R206). -/
  | readDigest
  /-- STATUS, OP 0x5 (44_commands.md R207). -/
  | status
deriving DecidableEq, Repr

/-- One host-to-core transaction `(cw, p)` (30_encoding.md R70). The word is a number, not a byte sequence
(20_memory.md R57). -/
structure Transaction where
  word : BitVec 32
  payload : List Byte
deriving DecidableEq, Repr

end Sys2Proof
end

