-- ==== Sys2Proof/WellFormed.lean ====
section
/-! DEFINITION. Which command terms have an encoding: an UPDATE payload fits the 16-bit COUNT (30_encoding.md R76, R81). -/

namespace Sys2Proof

/-- The only operand the encoding bounds is UPDATE's payload length, at most `MAX_COUNT` (00_scope.md R11). -/
def Instr.wellFormed : Instr → Bool
  | .init _ => true
  | .update payload => decide (payload.length ≤ Config.maxCount)
  | .finalize => true
  | .readDigest => true
  | .status => true

end Sys2Proof
end

