-- ==== Sys2Proof/Decode.lean ====
section
/-! DEFINITION. Decoding of a transaction, total on any word and payload and rejecting by name, and the encoder
(30_encoding.md R70-R82). -/

namespace Sys2Proof

/-! ### Fields of the command word (30_encoding.md R71) -/

def opField (cw : BitVec 32) : BitVec 4 := cw.extractLsb' 0 4

def variantField (cw : BitVec 32) : BitVec 1 := cw.extractLsb' 4 1

def reservedField (cw : BitVec 32) : BitVec 11 := cw.extractLsb' 5 11

def countField (cw : BitVec 32) : BitVec 16 := cw.extractLsb' 16 16

/-- 30_encoding.md R77: V = 0 selects SHA-256, V = 1 selects SHA-512. -/
def variantOfBit (b : BitVec 1) : Variant := if b = 0#1 then .sha256 else .sha512

/-- The four conditions of 30_encoding.md R73. -/
def wellFormedWord (cw : BitVec 32) : Bool :=
  [1#4, 2#4, 3#4, 4#4, 5#4].contains (opField cw) &&
  (reservedField cw == 0#11) &&
  (variantField cw == 0#1 || opField cw == 1#4) &&
  (countField cw == 0#16 || opField cw == 2#4)

/-- What a 32-bit word decodes to, exactly one of six forms (30_encoding.md R79). -/
inductive WordForm where
  | init (v : Variant)
  | update (count : BitVec 16)
  | finalize
  | readDigest
  | status
  | illegal
deriving DecidableEq, Repr

/-- 30_encoding.md R72, R73, R78: the operation a well-formed word selects; every other word is ILLEGAL. -/
def decodeWord (cw : BitVec 32) : WordForm :=
  if wellFormedWord cw then
    match (opField cw).toNat with
    | 1 => .init (variantOfBit (variantField cw))
    | 2 => .update (countField cw)
    | 3 => .finalize
    | 4 => .readDigest
    | 5 => .status
    | _ => .illegal
  else .illegal

/-- Expected payload length: COUNT for a well-formed UPDATE and 0 for every other word (30_encoding.md R80). -/
def expectedLength (cw : BitVec 32) : Nat :=
  if wellFormedWord cw ∧ opField cw = 2#4 then (countField cw).toNat else 0

/-- Why a transaction has no command: the two dispatch checks of 44_commands.md R200. -/
inductive DecodeError where
  /-- The word is not well-formed (30_encoding.md R73, R78). -/
  | illegalCommand
  /-- The payload length is not the expected one (30_encoding.md R80). -/
  | payloadMismatch
deriving DecidableEq, Repr

/-- Decode a transaction, with the checks in the order of 60_exceptions.md R307: the word first, then the length. -/
def decode (t : Transaction) : Except DecodeError Instr :=
  match decodeWord t.word with
  | .illegal => .error .illegalCommand
  | .init v => if t.payload.length = expectedLength t.word then .ok (.init v) else .error .payloadMismatch
  | .update _ => if t.payload.length = expectedLength t.word then .ok (.update t.payload) else .error .payloadMismatch
  | .finalize => if t.payload.length = expectedLength t.word then .ok .finalize else .error .payloadMismatch
  | .readDigest => if t.payload.length = expectedLength t.word then .ok .readDigest else .error .payloadMismatch
  | .status => if t.payload.length = expectedLength t.word then .ok .status else .error .payloadMismatch

/-! ### Encoder -/

/-- The V bit of a variant (30_encoding.md R77). -/
def bitOfVariant : Variant → BitVec 1
  | .sha256 => 0#1
  | .sha512 => 1#1

/-- A command word from its fields, COUNT highest (30_encoding.md R71). -/
def packWord (count : BitVec 16) (v : BitVec 1) (op : BitVec 4) : BitVec 32 :=
  ((count ++ 0#11) ++ v) ++ op

/-- The transaction of a command (30_encoding.md R72, R81). COUNT is the payload length, exact for a well-formed
command. -/
def encode : Instr → Transaction
  | .init v => ⟨packWord 0#16 (bitOfVariant v) 1#4, []⟩
  | .update payload => ⟨packWord (BitVec.ofNat 16 payload.length) 0#1 2#4, payload⟩
  | .finalize => ⟨packWord 0#16 0#1 3#4, []⟩
  | .readDigest => ⟨packWord 0#16 0#1 4#4, []⟩
  | .status => ⟨packWord 0#16 0#1 5#4, []⟩

/-! ### Words numbered as spec/opcode_table.json numbers them -/

/-- The `k` payload bytes that follow the command word, the first in the lowest bits (log entry 7). -/
def payloadOfBits : Nat → Nat → List Byte
  | 0, _ => []
  | k + 1, bits => BitVec.ofNat 8 bits :: payloadOfBits k (bits >>> 8)

/-- The transaction of an instruction whose bits are `w`: bits 31..0 are the command word and the payload follows,
with every bit from `nbits` up zero (log entry 7). -/
def transactionOfTableWord (nbits w : Nat) : Transaction :=
  let bits := w % 2 ^ nbits
  ⟨BitVec.ofNat 32 bits, payloadOfBits (expectedLength (BitVec.ofNat 32 bits)) (bits >>> 32)⟩

/-- What the decoder reads from an instruction whose bits are `w`; none where it refuses. -/
def decodeTableWord (nbits w : Nat) : Option Instr :=
  match decode (transactionOfTableWord nbits w) with
  | .ok i => some i
  | .error _ => none

end Sys2Proof
end

