-- ==== Sys2Proof/Machine/State.lean ====
section
/-! DEFINITION. The state of one core instance, what its step can stop with, and the state after reset
(10_state.md R20-R32, R44; 30_encoding.md R70, R74). -/

namespace Sys2Proof.Machine

/-- `st`, the five states of 10_state.md R30. Codes 5 to 7 are never held, so they have no constructor. -/
inductive CoreState where
  /-- After reset; no computation begun. -/
  | idle
  /-- INIT done, no UPDATE yet. -/
  | fresh
  /-- At least one successful UPDATE. -/
  | accepting
  /-- FINALIZE done; `dout` holds the digest. -/
  | finalized
  /-- A command faulted; `fcode` holds why. -/
  | faulted
deriving DecidableEq, Repr

/-- The fault codes of 60_exceptions.md R301, `fcode` of 10_state.md R27. Codes 7 to 15 are never reported, so they
have no constructor. -/
inductive FaultCode where
  /-- 0 NONE. -/
  | noFault
  /-- 1 USE_AFTER_FINALIZE. -/
  | useAfterFinalize
  /-- 2 NOT_INITIALISED. -/
  | notInitialised
  /-- 3 ILLEGAL_COMMAND. -/
  | illegalCommand
  /-- 4 LENGTH_OVERFLOW. -/
  | lengthOverflow
  /-- 5 DIGEST_UNAVAILABLE. -/
  | digestUnavailable
  /-- 6 PAYLOAD_MISMATCH. -/
  | payloadMismatch
deriving DecidableEq, Repr

/-- The accumulator `H[0..7]`, eight words of the variant's width (10_state.md R22; log entry 2). -/
inductive Accumulator where
  | words32 (h : Words8 32)
  | words64 (h : Words8 64)
deriving DecidableEq, Repr

/-- The core's answer to a command: the status word after it, and data bytes (30_encoding.md R74). -/
structure Response where
  sw : BitVec 32
  data : List Byte
deriving DecidableEq, Repr

/-- What the host can do to one instance (30_encoding.md R70, 70_reset_and_hazards.md R350, R351). -/
inductive HostEvent where
  /-- A transaction that runs to completion. -/
  | command (t : Transaction)
  /-- A reset between commands. -/
  | reset
  /-- A reset that arrives while this transaction is executing, and aborts it. -/
  | resetDuring (t : Transaction)
deriving DecidableEq, Repr

/-- The context fields that can be absent (10_state.md R44). -/
inductive ContextField where
  | var
  | H
  | buf
  | cnt
  | dout
deriving DecidableEq, Repr

/-- What stops the model. The core's own fault codes are no stops: they are next states (60_exceptions.md R302). -/
inductive Fault where
  /-- Raised by UPDATE, FINALIZE and READ_DIGEST when a value they read is absent: a model that reads one "must
  fault rather than pick a value" (00_scope.md R17). Safe: no state a run reaches stops so. -/
  | absentRead (field : ContextField)
deriving DecidableEq, Repr

/-- Why the model has no meaning for an instruction. -/
inductive Refusal where
  /-- Raised by a dispatch arm without a meaning; no arm of this model is one. Safe. -/
  | notModelled (mnemonic : String)
deriving DecidableEq, Repr

/-- One core instance: its context (10_state.md R20) and the two ends of its command channel (30_encoding.md R70, R74;
log entries 3 and 4). -/
structure State where
  /-- State-machine state (10_state.md R30). -/
  st : CoreState
  /-- Variant, or absent (10_state.md R21). -/
  var : Option Variant
  /-- Accumulator, or absent (10_state.md R22). -/
  H : Option Accumulator
  /-- Pending buffer, or absent (10_state.md R23). -/
  buf : Option (List Byte)
  /-- Bit counter, or absent (10_state.md R25). -/
  cnt : Option (BitVec 64)
  /-- Digest output register, or absent (10_state.md R26). -/
  dout : Option (List Byte)
  /-- Fault code (10_state.md R27). -/
  fcode : FaultCode
  /-- What the host sends, in the order the core receives it (20_memory.md R62; log entry 3). -/
  input : List HostEvent
  /-- The responses given, oldest first (30_encoding.md R74; log entry 4). -/
  responses : List Response
deriving DecidableEq, Repr

/-- 10_state.md R44, 70_reset_and_hazards.md R350; the two channel lists are empty (log entries 3 and 4). -/
def State.reset : State where
  st := .idle
  var := none
  H := none
  buf := none
  cnt := none
  dout := none
  fcode := .noFault
  input := []
  responses := []

/-- An outcome of this machine. -/
abbrev Outcome := Host.Outcome State Fault Refusal

end Sys2Proof.Machine
end

