-- ==== Sys2Proof/Machine/Operands.lean ====
section
/-! DEFINITION. Byte strings and big-endian conversion (00_scope.md R12, R14; 20_memory.md R55), and the accumulator
read and written at the variant's width (10_state.md R22). -/

namespace Sys2Proof.Machine

/-- `zeros(n)` (00_scope.md R12). -/
def zeros (n : Nat) : List Byte := List.replicate n 0#8

/-- `BE_n(v)`: byte `k` is bits `8(n-1-k)+7` to `8(n-1-k)` of `v` (00_scope.md R14). -/
def toBE (n v : Nat) : List Byte :=
  (List.range n).map fun k => BitVec.ofNat 8 (v >>> (8 * (n - 1 - k)))

/-- `fromBE(s)`, the first byte the most significant (00_scope.md R14). -/
def fromBE (s : List Byte) : Nat := s.foldl (fun acc b => acc * 256 + b.toNat) 0

/-- `s[a..b)` (00_scope.md R12). -/
def slice (s : List Byte) (a b : Nat) : List Byte := (s.drop a).take (b - a)

/-- The accumulator that holds eight words of variant `v`. -/
def accumulatorOf : (v : Variant) → Words8 v.w → Accumulator
  | .sha256, h => .words32 h
  | .sha512, h => .words64 h

/-- The eight words of an accumulator at variant `v`'s width; absent if it holds none of that width (log entry 2). -/
def accumulatorWords : (v : Variant) → Accumulator → Option (Words8 v.w)
  | .sha256, .words32 h => some h
  | .sha256, .words64 _ => none
  | .sha512, .words32 _ => none
  | .sha512, .words64 h => some h

end Sys2Proof.Machine
end

