-- ==== Sys2Proof/Machine/Schedule.lean ====
section
/-! DEFINITION. The message-schedule expander: DECODE and EXPAND (42_schedule.md R150-R153). -/

namespace Sys2Proof.Machine

/-- `DECODE_v(blk)`: word `i` is `fromBE(blk[i*wb .. (i+1)*wb))`, `i = 0..15` (42_schedule.md R150). -/
def decodeBlock (v : Variant) (blk : List Byte) : List (Word v) :=
  (List.range 16).map fun i => BitVec.ofNat v.w (fromBE (slice blk (i * v.wb) ((i + 1) * v.wb)))

/-- The recurrence of 42_schedule.md R152 over the words so far, the newest first, so that index `k` is
`W[t - 1 - k]`. -/
def nextScheduleWord (v : Variant) (newestFirst : List (Word v)) : Word v :=
  newestFirst.getD 15 0 + smallSigma0 v (newestFirst.getD 14 0) + newestFirst.getD 6 0 +
    smallSigma1 v (newestFirst.getD 1 0)

/-- Compute `n` further schedule words. -/
def extendSchedule (v : Variant) : Nat → List (Word v) → List (Word v)
  | 0, newestFirst => newestFirst
  | n + 1, newestFirst => extendSchedule v n (nextScheduleWord v newestFirst :: newestFirst)

/-- `EXPAND_v(M)`, from sixteen words to `R` (42_schedule.md R151). -/
def expand (v : Variant) (m : List (Word v)) : List (Word v) :=
  (extendSchedule v (rounds v - 16) m.reverse).reverse

end Sys2Proof.Machine
end

