-- ==== Sys2Proof/Machine/Compression.lean ====
section
/-! DEFINITION. The compression core: ROUND, COMPRESS and PROCESS_BLOCK (41_compression.md R130-R139). -/

namespace Sys2Proof.Machine

/-- `T1` of 41_compression.md R133. -/
def temp1 (v : Variant) (t : Nat) (r : Words8 v.w) (wt : Word v) : Word v :=
  r.h + bigSigma1 v r.e + ch r.e r.f r.g + kConst v t + wt

/-- `T2` of 41_compression.md R133. -/
def temp2 (v : Variant) (r : Words8 v.w) : Word v := bigSigma0 v r.a + maj r.a r.b r.c

/-- `ROUND_v(t, (a..h), Wt)`: all eight registers at once (41_compression.md R134, R135). -/
def round (v : Variant) (t : Nat) (r : Words8 v.w) (wt : Word v) : Words8 v.w where
  a := temp1 v t r wt + temp2 v r
  b := r.a
  c := r.b
  d := r.c
  e := r.d + temp1 v t r wt
  f := r.e
  g := r.f
  h := r.g

/-- The working registers after the first `n` rounds, `t = 0 .. n-1` in increasing order (41_compression.md R131). -/
def runRounds (v : Variant) (n : Nat) (r : Words8 v.w) (w : List (Word v)) : Words8 v.w :=
  (List.range n).foldl (fun r t => round v t r (w.getD t 0)) r

/-- The word-by-word sum of 41_compression.md R136. -/
def addWords {w : Nat} (x y : Words8 w) : Words8 w where
  a := x.a + y.a
  b := x.b + y.b
  c := x.c + y.c
  d := x.d + y.d
  e := x.e + y.e
  f := x.f + y.f
  g := x.g + y.g
  h := x.h + y.h

/-- `COMPRESS_v(H, W)`: exactly `R` rounds from a copy of `H`, then the sums (41_compression.md R131, R132, R137). -/
def compress (v : Variant) (h : Words8 v.w) (w : List (Word v)) : Words8 v.w :=
  addWords h (runRounds v (rounds v) h w)

/-- `PROCESS_BLOCK_v(H, blk)` (41_compression.md R138). -/
def processBlock (v : Variant) (h : Words8 v.w) (blk : List Byte) : Words8 v.w :=
  compress v h (expand v (decodeBlock v blk))

end Sys2Proof.Machine
end

