-- ==== Sys2Proof/Machine/Flags.lean ====
section
/-! DEFINITION. The status word, the core's only status bits (10_state.md R33-R39), and its decoder, which rejects the
values the core never produces (93_implementation_defined.md I6-I8). -/

namespace Sys2Proof.Machine

/-- The 3-bit code of 10_state.md R30. -/
def stateCode : CoreState → BitVec 3
  | .idle => 0
  | .fresh => 1
  | .accepting => 2
  | .finalized => 3
  | .faulted => 4

/-- The 4-bit code of 60_exceptions.md R301. -/
def faultCodeBits : FaultCode → BitVec 4
  | .noFault => 0
  | .useAfterFinalize => 1
  | .notInitialised => 2
  | .illegalCommand => 3
  | .lengthOverflow => 4
  | .digestUnavailable => 5
  | .payloadMismatch => 6

/-- VARIANT: 1 if `var = SHA512`, 0 if it is SHA256 or absent (10_state.md R35). -/
def variantStatus : Option Variant → BitVec 1
  | some .sha512 => 1
  | some .sha256 => 0
  | none => 0

/-- BUFLEN: `len(buf)`, 0 when `buf` is absent (10_state.md R37). -/
def bufferStatus : Option (List Byte) → BitVec 7
  | some b => BitVec.ofNat 7 b.length
  | none => 0

/-- The layout of 10_state.md R33, bits [31:15] zero. -/
def packStatus (state : BitVec 3) (variant : BitVec 1) (fault : BitVec 4) (buflen : BitVec 7) : BitVec 32 :=
  (((0#17 ++ buflen) ++ fault) ++ variant) ++ state

/-- The status word, computed from the context (10_state.md R33). -/
def statusWord (s : State) : BitVec 32 :=
  packStatus (stateCode s.st) (variantStatus s.var) (faultCodeBits s.fcode) (bufferStatus s.buf)

/-- What a host reads out of a status word. -/
structure StatusFields where
  state : CoreState
  variant : BitVec 1
  fault : FaultCode
  buflen : BitVec 7
deriving DecidableEq, Repr

def coreStateOfCode (c : BitVec 3) : Option CoreState :=
  [CoreState.idle, .fresh, .accepting, .finalized, .faulted].find? fun st => stateCode st == c

def faultCodeOfBits (c : BitVec 4) : Option FaultCode :=
  [FaultCode.noFault, .useAfterFinalize, .notInitialised, .illegalCommand, .lengthOverflow, .digestUnavailable,
    .payloadMismatch].find? fun f => faultCodeBits f == c

/-- Decode a status word; a reserved bit set, STATE 5 to 7 and FAULT 7 to 15 are rejected as impossible
(93_implementation_defined.md I6, I7, I8). -/
def decodeStatus (sw : BitVec 32) : Option StatusFields :=
  if sw.extractLsb' 15 17 = 0#17 then
    match coreStateOfCode (sw.extractLsb' 0 3), faultCodeOfBits (sw.extractLsb' 4 4) with
    | some st, some f => some ⟨st, sw.extractLsb' 3 1, f, sw.extractLsb' 8 7⟩
    | _, _ => none
  else none

end Sys2Proof.Machine
end

