-- ==== Sys2Proof/Machine/Padding.lean ====
section
/-! DEFINITION. The padding and length encoder PAD (43_padding.md R170-R177). -/

namespace Sys2Proof.Machine

/-- The marker byte, only the high bit set (43_padding.md R171). -/
def marker : Byte := 0x80#8

/-- `LF`, the bit count in `L` big-endian bytes (43_padding.md R172). -/
def lengthField (v : Variant) (cnt : BitVec 64) : List Byte := toBE (lengthBytes v) cnt.toNat

/-- `PAD_v(buf, cnt)`: one final block when the length field fits behind the marker, two when it does not
(43_padding.md R173, R174, R175). -/
def pad (v : Variant) (buf : List Byte) (cnt : BitVec 64) : List (List Byte) :=
  if buf.length < blockBytes v - lengthBytes v then
    [buf ++ [marker] ++ zeros (blockBytes v - lengthBytes v - buf.length - 1) ++ lengthField v cnt]
  else
    [buf ++ [marker] ++ zeros (blockBytes v - buf.length - 1),
     zeros (blockBytes v - lengthBytes v) ++ lengthField v cnt]

end Sys2Proof.Machine
end

