-- ==== Sys2Proof/Machine/Ops.lean ====
section
/-! DEFINITION. The shared operations of the commands: responding, fault entry, reset, the updates of the context,
ABSORB and SERIALIZE. The core has no addressable memory (20_memory.md R50); its byte store is `buf`. -/

namespace Sys2Proof.Machine

/-! ### Updates of the state -/

/-- Append the response `(STATUS_WORD(), d)`, its status word computed from the context as it now is
(30_encoding.md R74). -/
def State.withResponse (s : State) (d : List Byte) : State :=
  { s with responses := s.responses ++ [⟨statusWord s, d⟩] }

/-- Fault entry, the state part of `raise Fault(c)`: the first fault is kept (60_exceptions.md R302). `dout` is kept, as
R303 says; 10_state.md R26 has it hold a value only in Finalized. DESIGN CHOICE: follow R303 (log entry 15). -/
def State.enterFault (s : State) (c : FaultCode) : State :=
  { s with
    st := if s.st = .faulted then s.st else .faulted
    fcode := if s.st = .faulted then s.fcode else c }

/-- The context of a new computation (44_commands.md R201). -/
def State.startComputation (s : State) (v : Variant) : State :=
  { s with
    var := some v
    H := some (accumulatorOf v (iv v))
    buf := some []
    cnt := some 0
    dout := none
    fcode := .noFault
    st := .fresh }

/-- What a successful UPDATE writes (44_commands.md R202). -/
def State.putAbsorbed (s : State) (h : Accumulator) (buf : List Byte) (cnt : BitVec 64) : State :=
  { s with H := some h, buf := some buf, cnt := some cnt, st := .accepting }

/-- What a successful FINALIZE writes: `cnt` is left unchanged (44_commands.md R205). -/
def State.putDigest (s : State) (h : Accumulator) (digest : List Byte) : State :=
  { s with H := some h, buf := some [], dout := some digest, st := .finalized }

/-- What remains to be received after the head of the channel is taken. -/
def State.withInput (s : State) (input : List HostEvent) : State := { s with input := input }

/-- Reset of the context, of every kind (70_reset_and_hazards.md R350). The channel is not part of the context
(log entry 6). -/
def State.resetContext (s : State) : State :=
  { State.reset with input := s.input, responses := s.responses }

/-! ### Ends of a command -/

/-- `respond(d)`: end the command (00_scope.md R15). -/
def respond (d : List Byte) (s : State) : Outcome := .next (s.withResponse d)

/-- `raise Fault(c)`: fault entry, then the response with no data (60_exceptions.md R302). The computation is left
by INIT or reset only; there is no return from a fault (R305). -/
def raiseFault (c : FaultCode) (s : State) : Outcome := respond [] (s.enterFault c)

/-- A transaction ignored in Faulted: the status word, no data, nothing changed (60_exceptions.md R304). -/
def ignoreCommand (s : State) : Outcome := respond [] s

/-- The model's stop for reading an absent value (00_scope.md R17). -/
def absentValue (f : ContextField) : Outcome := .fault (.absentRead f)

/-! ### The computation in progress -/

/-- Run `k` on the computation the context holds, its variant, accumulator, pending bytes and counter; each must be
present (00_scope.md R17). -/
def withComputation (s : State) (k : (v : Variant) → Words8 v.w → List Byte → BitVec 64 → Outcome) : Outcome :=
  match s.var with
  | none => absentValue .var
  | some v =>
    match s.H.bind (accumulatorWords v) with
    | none => absentValue .H
    | some h =>
      match s.buf with
      | none => absentValue .buf
      | some b =>
        match s.cnt with
        | none => absentValue .cnt
        | some c => k v h b c

/-- `ABSORB(p)`, the byte loop of UPDATE, from accumulator `h` and pending buffer `buf` (44_commands.md R203). -/
def absorb (v : Variant) : Words8 v.w → List Byte → List Byte → Words8 v.w × List Byte
  | h, buf, [] => (h, buf)
  | h, buf, b :: p =>
    if (buf ++ [b]).length = blockBytes v then absorb v (processBlock v h (buf ++ [b])) [] p
    else absorb v h (buf ++ [b]) p

/-- PROCESS_BLOCK on each block, in order. -/
def processBlocks (v : Variant) (h : Words8 v.w) (blks : List (List Byte)) : Words8 v.w :=
  blks.foldl (processBlock v) h

/-- `SERIALIZE_v(H)`: the eight words in order, each big-endian (45_digest_and_oneshot.md R250). -/
def serialize (v : Variant) (h : Words8 v.w) : List Byte :=
  h.toList.flatMap fun x => toBE v.wb x.toNat

end Sys2Proof.Machine
end

