-- ==== Sys2Proof/Machine/Commands.lean ====
section
/-! DEFINITION. The meaning of each command (44_commands.md R201-R207), for a well-formed transaction; the checks of
the word and the payload length are in Machine/Execute.lean. -/

namespace Sys2Proof.Machine

/-- INIT: begin a new computation, in every state (44_commands.md R201). -/
def execInit (v : Variant) (s : State) : Outcome := respond [] (s.startComputation v)

/-- UPDATE in Fresh or Accepting: the overflow check, then ABSORB (44_commands.md R202). -/
def updateComputation (p : List Byte) (s : State) : Outcome :=
  withComputation s fun v h buf cnt =>
    if cnt.toNat + 8 * p.length > Config.counterMax then raiseFault .lengthOverflow s
    else
      respond []
        (s.putAbsorbed (accumulatorOf v (absorb v h buf p).1) (absorb v h buf p).2
          (cnt + BitVec.ofNat 64 (8 * p.length)))

/-- UPDATE: consume message bytes (44_commands.md R202; ignored in Faulted, 60_exceptions.md R304). -/
def execUpdate (p : List Byte) (s : State) : Outcome :=
  match s.st with
  | .faulted => ignoreCommand s
  | .idle => raiseFault .notInitialised s
  | .finalized => raiseFault .useAfterFinalize s
  | .fresh => updateComputation p s
  | .accepting => updateComputation p s

/-- FINALIZE in Fresh or Accepting: compress the padded blocks in order and produce the digest (44_commands.md R205). -/
def finalizeComputation (s : State) : Outcome :=
  withComputation s fun v h buf cnt =>
    let h' := processBlocks v h (pad v buf cnt)
    respond (serialize v h') (s.putDigest (accumulatorOf v h') (serialize v h'))

/-- FINALIZE: pad, compress, produce the digest (44_commands.md R205; ignored in Faulted, 60_exceptions.md R304). -/
def execFinalize (s : State) : Outcome :=
  match s.st with
  | .faulted => ignoreCommand s
  | .idle => raiseFault .notInitialised s
  | .finalized => raiseFault .useAfterFinalize s
  | .fresh => finalizeComputation s
  | .accepting => finalizeComputation s

/-- READ_DIGEST: return the digest again (44_commands.md R206; ignored in Faulted, 60_exceptions.md R304). -/
def execReadDigest (s : State) : Outcome :=
  match s.st with
  | .faulted => ignoreCommand s
  | .finalized =>
    match s.dout with
    | some d => respond d s
    | none => absentValue .dout
  | .idle => raiseFault .digestUnavailable s
  | .fresh => raiseFault .digestUnavailable s
  | .accepting => raiseFault .digestUnavailable s

/-- STATUS: the status word of the response is the whole result (44_commands.md R207). -/
def execStatus (s : State) : Outcome := respond [] s

end Sys2Proof.Machine
end

