-- ==== Sys2Proof/Machine/Dispatch.lean ====
section
/-! DEFINITION. One arm per command of spec/opcode_table.json. -/

namespace Sys2Proof.Machine

def exec (i : Instr) (s : State) : Host.Outcome State Fault Refusal :=
  match i with
  | .init v => Sys2Proof.Machine.execInit v s
  | .update payload => Sys2Proof.Machine.execUpdate payload s
  | .finalize => Sys2Proof.Machine.execFinalize s
  | .readDigest => Sys2Proof.Machine.execReadDigest s
  | .status => Sys2Proof.Machine.execStatus s

end Sys2Proof.Machine
end

