-- ==== Sys2Proof/Machine/Execute.lean ====
section
/-! DEFINITION. Running one transaction (EXECUTE of 44_commands.md R200) and one host event. -/

namespace Sys2Proof.Machine

/-- `EXECUTE(cw, p)` (44_commands.md R200). In Faulted, fault entry changes nothing, so an ill-formed transaction is
ignored there (60_exceptions.md R302, R304). -/
def execute (t : Transaction) (s : State) : Outcome :=
  match decode t with
  | .ok i => exec i s
  | .error .illegalCommand => raiseFault .illegalCommand s
  | .error .payloadMismatch => raiseFault .payloadMismatch s

/-- One host event. A reset that arrives during a command aborts it: no response, no partial result, and the state
after reset (70_reset_and_hazards.md R351). -/
def runEvent (e : HostEvent) (s : State) : Outcome :=
  match e with
  | .command t => execute t s
  | .reset => .next s.resetContext
  | .resetDuring _ => .next s.resetContext

/-- Take the next event in the order received (20_memory.md R62). With none pending the core does nothing and its
context persists (60_exceptions.md R315; log entry 5). -/
def receive (s : State) : Outcome :=
  match s.input with
  | [] => .next s
  | e :: rest => runEvent e (s.withInput rest)

end Sys2Proof.Machine
end

