-- ==== Sys2Proof/Machine/Step.lean ====
section
/-! DEFINITION. One step: one host event, executed atomically (00_scope.md R16, 20_memory.md R59). -/

namespace Sys2Proof.Machine

/-- The core receives and completes one host event. -/
def step (s : State) : Host.Outcome State Fault Refusal := receive s

/-- `s` with the transaction of a table word as the next event the core receives (log entries 3 and 7). -/
def State.withFetchWord (s : State) (nbits w : Nat) : State :=
  { s with input := .command (transactionOfTableWord nbits w) :: s.input }

end Sys2Proof.Machine
end

