-- ==== Sys2Proof/Machine/Literal.lean ====
section
/-! DEFINITION. The test-vector literal, a notation of the host and the testbench, never parsed by the core
(45_digest_and_oneshot.md R252-R254; 60_exceptions.md R316). -/

namespace Sys2Proof.Machine

/-- A condition of the host's parser; not a core fault (60_exceptions.md R316). -/
inductive HostCondition where
  /-- The string is not a test-vector literal (45_digest_and_oneshot.md R254). -/
  | invalidEncoding
deriving DecidableEq, Repr

/-- The value of a hexadecimal character, either case (45_digest_and_oneshot.md R253). -/
def hexDigit (c : Char) : Option Nat :=
  if 48 ≤ c.toNat ∧ c.toNat ≤ 57 then some (c.toNat - 48)
  else if 97 ≤ c.toNat ∧ c.toNat ≤ 102 then some (c.toNat - 87)
  else if 65 ≤ c.toNat ∧ c.toNat ≤ 70 then some (c.toNat - 55)
  else none

/-- The lower-case character of a value below 16 (00_scope.md R18). -/
def hexChar (n : Nat) : Char := if n < 10 then Char.ofNat (48 + n) else Char.ofNat (87 + n)

/-- The byte of a character pair, the first the high nibble (45_digest_and_oneshot.md R253). -/
def hexByte (hi lo : Char) : Option Byte :=
  match hexDigit hi, hexDigit lo with
  | some x, some y => some (BitVec.ofNat 8 (16 * x + y))
  | _, _ => none

/-- The bytes of a string of character pairs. -/
def hexPairs : List Char → Option (List Byte)
  | [] => some []
  | [_] => none
  | hi :: lo :: cs =>
    match hexByte hi lo, hexPairs cs with
    | some b, some bs => some (b :: bs)
    | _, _ => none

/-- Parse a literal of a digest of variant `v`: exactly `2 * D` hexadecimal characters, else `InvalidEncoding` and no
digest (45_digest_and_oneshot.md R253, R254). -/
def parseLiteral (v : Variant) (cs : List Char) : Except HostCondition (List Byte) :=
  if cs.length = 2 * digestBytes v then
    match hexPairs cs with
    | some bs => .ok bs
    | none => .error .invalidEncoding
  else .error .invalidEncoding

/-- Two lower-case characters per byte, in order (00_scope.md R18). -/
def hexText : List Byte → List Char
  | [] => []
  | b :: bs => hexChar (b.toNat / 16) :: hexChar (b.toNat % 16) :: hexText bs

/-- Digest comparison, done by the host: same length and same byte at every index
(45_digest_and_oneshot.md R252). -/
def digestEqual : List Byte → List Byte → Bool
  | [], [] => true
  | x :: xs, y :: ys => x == y && digestEqual xs ys
  | [], _ :: _ => false
  | _ :: _, [] => false

end Sys2Proof.Machine
end

