-- ==== Sys2Proof/Machine/Pseudo.lean ====
section
/-! DEFINITION. The pseudo-commands UPDATEN and CALC, and command sequences (30_encoding.md R83, R84;
45_digest_and_oneshot.md R255). -/

namespace Sys2Proof.Machine

/-- The chunks of UPDATEN: `k = max(1, ceil(n / 65535))`, chunk `i` is `m[i*65535 .. min(n, (i+1)*65535))`
(30_encoding.md R83). -/
def updateNChunks (m : List Byte) : List (List Byte) :=
  (List.range (max 1 ((m.length + Config.maxCount - 1) / Config.maxCount))).map fun i =>
    slice m (i * Config.maxCount) (min m.length ((i + 1) * Config.maxCount))

/-- `UPDATEN m` (30_encoding.md R83). -/
def updateN (m : List Byte) : List Instr := (updateNChunks m).map .update

/-- `INIT v`, one UPDATE per chunk, FINALIZE. -/
def hashChunks (v : Variant) (chunks : List (List Byte)) : List Instr :=
  .init v :: (chunks.map .update ++ [.finalize])

/-- `CALC v, m` (45_digest_and_oneshot.md R255). -/
def oneShot (v : Variant) (m : List Byte) : List Instr := hashChunks v (updateNChunks m)

/-- The host events that send commands, in order. -/
def send (is : List Instr) : List HostEvent := is.map fun i => .command (encode i)

/-- Run commands one after another, each on the state the one before it left (20_memory.md R62). -/
def execAll : List Instr → State → Outcome
  | [], s => .next s
  | i :: is, s =>
    match exec i s with
    | .next s' => execAll is s'
    | .fault r => .fault r
    | .refused r => .refused r

end Sys2Proof.Machine
end

