-- ==== Sys2Proof/Machine/Assembler.lean ====
section
/-! DEFINITION. The textual syntax of command sequences, one command a line (30_encoding.md R81, R83, R84; log entry
10). A tool of the host, not a part of the core. -/

namespace Sys2Proof.Machine

/-- Why a line is no command. -/
inductive AsmError where
  | unknownMnemonic
  | badOperand
  | payloadTooLong
  | trailingText
deriving DecidableEq, Repr

def isBlank (c : Char) : Bool := c == ' ' || c == '\t'

def skipBlanks (cs : List Char) : List Char := cs.dropWhile isBlank

/-- A token ends at a blank, a comma or a comment. -/
def isTokenChar (c : Char) : Bool := !(isBlank c || c == ',' || c == ';')

/-- Nothing left but blanks and a comment, which starts with `;`. -/
def lineEnds (cs : List Char) : Bool :=
  match skipBlanks cs with
  | [] => true
  | c :: _ => c == ';'

/-- The bytes of a double-quoted ASCII string with no escapes, after its opening quote, and what follows it. -/
def quotedAscii : List Char → Option (List Byte × List Char)
  | [] => none
  | c :: cs =>
    if c = '"' then some ([], cs)
    else if c.toNat < 128 then
      match quotedAscii cs with
      | some (bs, rest) => some (BitVec.ofNat 8 c.toNat :: bs, rest)
      | none => none
    else none

/-- The bytes of `x"` hexadecimal pairs `"`, after its opening quote, and what follows it. -/
def quotedHex : List Char → Option (List Byte × List Char)
  | [] => none
  | [c] => if c = '"' then some ([], []) else none
  | c :: d :: cs =>
    if c = '"' then some ([], d :: cs)
    else
      match hexByte c d, quotedHex cs with
      | some b, some (bs, rest) => some (b :: bs, rest)
      | _, _ => none

/-- `<bytes>`: a quoted ASCII string or a hexadecimal string (30_encoding.md R81). -/
def bytesOperand (cs : List Char) : Option (List Byte × List Char) :=
  match cs with
  | '"' :: rest => quotedAscii rest
  | 'x' :: '"' :: rest => quotedHex rest
  | _ => none

def variantOperand (name : List Char) : Option Variant :=
  if name = ['S', 'H', 'A', '2', '5', '6'] then some .sha256
  else if name = ['S', 'H', 'A', '5', '1', '2'] then some .sha512
  else none

/-- `0x` and 8 hexadecimal digits, the operand of `.word`. -/
def wordOperand (name : List Char) : Option (BitVec 32) :=
  match name with
  | '0' :: 'x' :: ds =>
    if ds.length = 8 then
      match hexPairs ds with
      | some bs => some (BitVec.ofNat 32 (fromBE bs))
      | none => none
    else none
  | _ => none

/-- One result, if the line ends here. -/
def atLineEnd (rest : List Char) (ts : List Transaction) : Except AsmError (List Transaction) :=
  if lineEnds rest then .ok ts else .error .trailingText

/-- The transactions of one line: none for a blank or comment line, one for a command or `.word`, several for a
pseudo-command. Mnemonics are case-insensitive (30_encoding.md R81). DESIGN CHOICE: the directive `.word` counts as a
mnemonic, so `.WORD` is accepted too (log entry 10). -/
def assembleLine (line : List Char) : Except AsmError (List Transaction) :=
  if lineEnds line then .ok []
  else
    let start := skipBlanks line
    let mnemonic := (start.takeWhile isTokenChar).map Char.toUpper
    let operand := skipBlanks (start.dropWhile isTokenChar)
    if mnemonic = ['I', 'N', 'I', 'T'] then
      match variantOperand (operand.takeWhile isTokenChar) with
      | some v => atLineEnd (operand.dropWhile isTokenChar) [encode (.init v)]
      | none => .error .badOperand
    else if mnemonic = ['U', 'P', 'D', 'A', 'T', 'E'] then
      match bytesOperand operand with
      | some (bs, rest) =>
        if bs.length ≤ Config.maxCount then atLineEnd rest [encode (.update bs)] else .error .payloadTooLong
      | none => .error .badOperand
    else if mnemonic = ['F', 'I', 'N', 'A', 'L', 'I', 'Z', 'E'] then atLineEnd operand [encode .finalize]
    else if mnemonic = ['R', 'E', 'A', 'D', '_', 'D', 'I', 'G', 'E', 'S', 'T'] then
      atLineEnd operand [encode .readDigest]
    else if mnemonic = ['S', 'T', 'A', 'T', 'U', 'S'] then atLineEnd operand [encode .status]
    else if mnemonic = ['.', 'W', 'O', 'R', 'D'] then
      match wordOperand (operand.takeWhile isTokenChar) with
      | some w => atLineEnd (operand.dropWhile isTokenChar) [⟨w, []⟩]
      | none => .error .badOperand
    else if mnemonic = ['U', 'P', 'D', 'A', 'T', 'E', 'N'] then
      match bytesOperand operand with
      | some (bs, rest) => atLineEnd rest ((updateN bs).map encode)
      | none => .error .badOperand
    else if mnemonic = ['C', 'A', 'L', 'C'] then
      match variantOperand (operand.takeWhile isTokenChar), skipBlanks (operand.dropWhile isTokenChar) with
      | some v, ',' :: rest =>
        match bytesOperand (skipBlanks rest) with
        | some (bs, rest') => atLineEnd rest' ((oneShot v bs).map encode)
        | none => .error .badOperand
      | _, _ => .error .badOperand
    else .error .unknownMnemonic

/-- A program: its lines in order; the first bad line stops it. -/
def assemble : List (List Char) → Except AsmError (List Transaction)
  | [] => .ok []
  | line :: lines =>
    match assembleLine line, assemble lines with
    | .ok ts, .ok us => .ok (ts ++ us)
    | .error e, _ => .error e
    | .ok _, .error e => .error e

end Sys2Proof.Machine
end

