-- ==== Sys2Proof/Machine/Platform.lean ====
section
/-! DEFINITION. A platform of `N_INSTANCES` independent core instances (00_scope.md R11, 20_memory.md R67,
60_exceptions.md R312; log entry 8). -/

namespace Sys2Proof.Machine

/-- The instances, and where the platform places each one's command channel. -/
structure Platform where
  /-- Instance `k` is element `k`; their number is `N_INSTANCES`. -/
  cores : List State
  /-- `CMD_CHANNEL_BINDING`, one place for each instance; no rule of the core reads it (20_memory.md R61). -/
  binding : List Nat
deriving DecidableEq, Repr

/-- At least one instance, and a place for each channel (00_scope.md R11). Two instances may be bound to one place,
since the spec does not exclude it (DESIGN CHOICE, log entry 8). -/
def platformOk (p : Platform) : Bool := 1 ≤ p.cores.length && p.binding.length == p.cores.length

/-- `n` instances, each in its own reset state (60_exceptions.md R312). -/
def platformReset (n : Nat) (binding : List Nat) : Platform := ⟨List.replicate n State.reset, binding⟩

/-- The host sends an event to the instance whose channel is at `place`. The spec leaves the placement open (00_scope.md
R11, 20_memory.md R61). DESIGN CHOICE (log entry 8): an event sent to a place where no instance is bound is dropped, and
where two are bound only the lowest-numbered one receives it. -/
def platformSend (place : Nat) (e : HostEvent) (p : Platform) : Platform :=
  { p with cores := p.cores.modify (p.binding.idxOf place) fun s => s.withInput (s.input ++ [e]) }

/-- Instance `k` takes a step; a number with no instance changes nothing. -/
def platformStep (k : Nat) (p : Platform) : Host.Outcome Platform Fault Refusal :=
  match p.cores[k]? with
  | none => .next p
  | some s =>
    match step s with
    | .next s' => .next { p with cores := p.cores.set k s' }
    | .fault r => .fault r
    | .refused r => .refused r

end Sys2Proof.Machine
end

