-- ==== Sys2Proof/Machine/Reference.lean ====
section
/-! DEFINITION. The message seen as one byte string: its blocks (20_memory.md R54), its padded form (43_padding.md
R171-R176) and its digest, defined without the incremental state machine. Statements compare the commands with it. -/

namespace Sys2Proof.Machine

/-- The complete blocks of a byte string: block `j` is bytes `[j*B, (j+1)*B)` (20_memory.md R54). -/
def blocks (v : Variant) (m : List Byte) : List (List Byte) :=
  (List.range (m.length / blockBytes v)).map fun j => slice m (j * blockBytes v) ((j + 1) * blockBytes v)

/-- The bytes after the last complete block. -/
def tailBytes (v : Variant) (m : List Byte) : List Byte := m.drop (m.length / blockBytes v * blockBytes v)

/-- The accumulator after every complete block of `m`, from the IV (20_memory.md R54). -/
def messageAccumulator (v : Variant) (m : List Byte) : Words8 v.w := processBlocks v (iv v) (blocks v m)

/-- The number of zero bytes between the marker and the length field: the least that makes the padded length a
multiple of `B` (43_padding.md R173, R174). -/
def zeroFill (v : Variant) (n : Nat) : Nat :=
  (blockBytes v - (n + 1 + lengthBytes v) % blockBytes v) % blockBytes v

/-- The whole padded message: marker, zeros, bit count in `L` big-endian bytes (43_padding.md R171-R174). -/
def paddedMessage (v : Variant) (m : List Byte) : List Byte :=
  m ++ [marker] ++ zeros (zeroFill v m.length) ++ toBE (lengthBytes v) (8 * m.length)

/-- The accumulator after every block of the padded message. -/
def finalAccumulator (v : Variant) (m : List Byte) : Words8 v.w := messageAccumulator v (paddedMessage v m)

/-- The digest of a message: SHA-256 or SHA-512 of `m`. -/
def messageDigest (v : Variant) (m : List Byte) : List Byte := serialize v (finalAccumulator v m)

end Sys2Proof.Machine
end

