-- ==== Sys2Proof/Safety.lean ====
section
/-! DEFINITION. What a context must satisfy between commands (10_state.md R32, R44), in the terms the statements use,
and what counts as a run without a fault (60_exceptions.md R306). -/

namespace Sys2Proof.Machine

/-- The context holds the computation of variant `v` over the message `m`: the accumulator has compressed `m`'s
complete blocks, `buf` is what follows them and `cnt` is 8 times the number of bytes (10_state.md R25, R32). -/
def Computing (v : Variant) (m : List Byte) (s : State) : Prop :=
  s.var = some v ∧ s.H = some (accumulatorOf v (messageAccumulator v m)) ∧ s.buf = some (tailBytes v m) ∧
    s.cnt = some (BitVec.ofNat 64 (8 * m.length)) ∧ 8 * m.length ≤ Config.counterMax ∧ s.dout = none

/-- The context holds the finished computation of variant `v` over `m`: `buf` is empty, `dout` is SERIALIZE of `H`,
and that is the digest of `m` (10_state.md R26, R32). -/
def Finished (v : Variant) (m : List Byte) (s : State) : Prop :=
  s.var = some v ∧ s.H = some (accumulatorOf v (finalAccumulator v m)) ∧ s.buf = some [] ∧
    s.cnt = some (BitVec.ofNat 64 (8 * m.length)) ∧ 8 * m.length ≤ Config.counterMax ∧
    s.dout = some (messageDigest v m)

/-- Nothing but the state and the fault code is present (10_state.md R44). -/
def NoComputation (s : State) : Prop :=
  s.var = none ∧ s.H = none ∧ s.buf = none ∧ s.cnt = none ∧ s.dout = none

/-- What `var`, `H`, `buf`, `cnt` and `dout` satisfy in state `st`; Faulted has no condition of its own. -/
def ContextFits (st : CoreState) (s : State) : Prop :=
  match st with
  | .idle => NoComputation s
  | .fresh => ∃ v, Computing v [] s
  | .accepting => ∃ v m, Computing v m s
  | .finalized => ∃ v m, Finished v m s
  | .faulted => False

/-- The invariant of 10_state.md R32, with R27's: `fcode` is nonzero exactly in Faulted, where the context still fits
the state before the fault, `dout` included (log entry 15). -/
def Inv (s : State) : Prop :=
  (s.st ≠ .faulted ∧ s.fcode = .noFault ∧ ContextFits s.st s) ∨
    (s.st = .faulted ∧ s.fcode ≠ .noFault ∧ ∃ st, ContextFits st s)

/-- The state in which UPDATE and FINALIZE work on a computation (44_commands.md R202, R205). -/
abbrev Open (s : State) : Prop := s.st = .fresh ∨ s.st = .accepting

/-! ### The command word and the status word as numbers

The fields of 30_encoding.md R71 and 10_state.md R33 read by division, independently of the decoder and of
`statusWord`. -/

/-- OP, bits [3:0]. -/
def wordOp (cw : BitVec 32) : Nat := cw.toNat % 16

/-- V, bit [4]. -/
def wordV (cw : BitVec 32) : Nat := cw.toNat / 16 % 2

/-- RSVD, bits [15:5]. -/
def wordRsvd (cw : BitVec 32) : Nat := cw.toNat / 32 % 2048

/-- COUNT, bits [31:16]. -/
def wordCount (cw : BitVec 32) : Nat := cw.toNat / 65536

/-- The four conditions of 30_encoding.md R73. -/
def wordOk (cw : BitVec 32) : Bool :=
  decide ((1 ≤ wordOp cw ∧ wordOp cw ≤ 5) ∧ wordRsvd cw = 0 ∧ (wordOp cw ≠ 1 → wordV cw = 0) ∧
    (wordOp cw ≠ 2 → wordCount cw = 0))

/-- The expected payload length (30_encoding.md R80). -/
def expectedPayload (cw : BitVec 32) : Nat := if wordOk cw ∧ wordOp cw = 2 then wordCount cw else 0

/-- A well-formed INIT or STATUS with an empty payload, the only transactions not ignored in Faulted
(60_exceptions.md R304). -/
def RunsInFaulted (t : Transaction) : Prop :=
  wordOk t.word ∧ (wordOp t.word = 1 ∨ wordOp t.word = 5) ∧ t.payload.length = 0

/-- The fault a transaction raises outside Faulted, the first that holds in the order of 60_exceptions.md R307;
R308 is its table. -/
def raisedFault (s : State) (t : Transaction) : Option FaultCode :=
  if ¬ wordOk t.word then some .illegalCommand
  else if t.payload.length ≠ expectedPayload t.word then some .payloadMismatch
  else if (wordOp t.word = 2 ∨ wordOp t.word = 3) ∧ s.st = .idle then some .notInitialised
  else if (wordOp t.word = 2 ∨ wordOp t.word = 3) ∧ s.st = .finalized then some .useAfterFinalize
  else if wordOp t.word = 4 ∧ s.st ≠ .finalized then some .digestUnavailable
  else if wordOp t.word = 2 ∧ (s.cnt.getD 0).toNat + 8 * wordCount t.word > 2 ^ 64 - 1 then some .lengthOverflow
  else none

/-- VARIANT as a number (10_state.md R35). -/
def variantNumber : Variant → Nat
  | .sha256 => 0
  | .sha512 => 1

/-- STATE as a number (10_state.md R30, R34). -/
def stateNumber : CoreState → Nat
  | .idle => 0
  | .fresh => 1
  | .accepting => 2
  | .finalized => 3
  | .faulted => 4

/-- FAULT as a number (60_exceptions.md R301). -/
def faultNumber : FaultCode → Nat
  | .noFault => 0
  | .useAfterFinalize => 1
  | .notInitialised => 2
  | .illegalCommand => 3
  | .lengthOverflow => 4
  | .digestUnavailable => 5
  | .payloadMismatch => 6

/-- The status word with these field values (10_state.md R33). -/
def statusOf (state variant fault buflen : Nat) : BitVec 32 :=
  BitVec.ofNat 32 (state + 8 * variant + 16 * fault + 256 * buflen)

end Sys2Proof.Machine
end

