-- ==== Sys2Proof/Certificates/Slice0/Obligations.lean ====
section
/-! DEFINITION. The statements for the provers. Each docstring names the rule it formalises. Rules the spec itself
marks as derived, or as general knowledge, are formalised by statements of basis 'derived'. -/

open Sys2Proof Sys2Proof.Machine

/-! ### Encoding -/

/-- 30_encoding.md section 3: decoding is total, the well-formed words are exactly these, and a word that is well-formed
is fixed except for the field its form uses. -/
def Obligations.WordsDecodeToTheirForm : Prop :=
  ∀ cw : BitVec 32,
    (decodeWord cw = .init .sha256 ↔ cw = 0x00000001) ∧ (decodeWord cw = .init .sha512 ↔ cw = 0x00000011) ∧
    (∀ n : BitVec 16, decodeWord cw = .update n ↔ cw.toNat = 65536 * n.toNat + 2) ∧
    (decodeWord cw = .finalize ↔ cw = 0x00000003) ∧ (decodeWord cw = .readDigest ↔ cw = 0x00000004) ∧
    (decodeWord cw = .status ↔ cw = 0x00000005)

/-- 30_encoding.md section 3 (the spec's own inference): the well-formed words number 2 + 65536 + 1 + 1 + 1. -/
def Obligations.WellFormedWordsNumber65541 : Prop :=
  ∃ ws : List (BitVec 32), ws.Nodup ∧ ws.length = 65541 ∧ ∀ cw, cw ∈ ws ↔ decodeWord cw ≠ .illegal

/-- 30_encoding.md R73: the four conditions, read as numbers, and the fault a word that misses one raises. -/
def Obligations.IllFormedWordRaisesIllegalCommand : Prop :=
  ∀ (s : State) (t : Transaction) (rest : List HostEvent),
    (decode t = .error .illegalCommand ↔ ¬ wordOk t.word) ∧
    (s.input = .command t :: rest → ¬ wordOk t.word →
      (s.st ≠ .faulted → step s = raiseFault .illegalCommand { s with input := rest }) ∧
      (s.st = .faulted → step s = respond [] { s with input := rest }))

/-- 30_encoding.md R80: COUNT is the expected length of a well-formed UPDATE and 0 that of every other word; a
transaction of another length raises code 6, after the check of the word (60_exceptions.md R307). -/
def Obligations.WrongLengthRaisesPayloadMismatch : Prop :=
  ∀ (s : State) (t : Transaction) (rest : List HostEvent),
    (wordOk t.word → wordOp t.word = 2 → expectedLength t.word = wordCount t.word) ∧
    (¬ (wordOk t.word ∧ wordOp t.word = 2) → expectedLength t.word = 0) ∧
    (decode t = .error .payloadMismatch ↔ wordOk t.word ∧ t.payload.length ≠ expectedPayload t.word) ∧
    (s.input = .command t :: rest → wordOk t.word → t.payload.length ≠ expectedPayload t.word →
      (s.st ≠ .faulted → step s = raiseFault .payloadMismatch { s with input := rest }) ∧
      (s.st = .faulted → step s = respond [] { s with input := rest }))

/-- Every well-formed command is what its encoding decodes to, with every operand at every value the encoding admits. -/
def Obligations.DecodeOfEncodeIsTheCommand : Prop :=
  ∀ i : Instr, i.wellFormed = true → decode (encode i) = .ok i

/-- Every transaction the decoder accepts is the encoding of the command it reads, which is well-formed. -/
def Obligations.EncodeOfDecodeIsTheTransaction : Prop :=
  ∀ (t : Transaction) (i : Instr), decode t = .ok i → i.wellFormed = true ∧ encode i = t

/-- 30_encoding.md section 4 (the spec's own examples, all but UPDATE of 65535 bytes): the words of the fixed commands.
The last three clauses are words of this model's choosing: two that R73 and R78 make illegal, and an UPDATE one byte
short of its COUNT, which R80 rejects. -/
def Obligations.ExampleWordsDecode : Prop :=
  decode ⟨0x00000001, []⟩ = .ok (.init .sha256) ∧ decode ⟨0x00000011, []⟩ = .ok (.init .sha512) ∧
  decode ⟨0x00000002, []⟩ = .ok (.update []) ∧
  decode ⟨0x00050002, [0x68, 0x65, 0x6c, 0x6c, 0x6f]⟩ = .ok (.update [0x68, 0x65, 0x6c, 0x6c, 0x6f]) ∧
  decode ⟨0x00000003, []⟩ = .ok .finalize ∧ decode ⟨0x00000004, []⟩ = .ok .readDigest ∧
  decode ⟨0x00000005, []⟩ = .ok .status ∧ decode ⟨0x00000000, []⟩ = .error .illegalCommand ∧
  decode ⟨0x00000013, []⟩ = .error .illegalCommand ∧ decode ⟨0x00030002, [0x61, 0x62]⟩ = .error .payloadMismatch

/-! ### The step -/

/-- A step on a transaction that decodes is the command's meaning, on the state with the transaction received. -/
def Obligations.StepRunsTheDecodedCommand : Prop :=
  ∀ (s : State) (t : Transaction) (rest : List HostEvent) (i : Instr),
    s.input = .command t :: rest → decode t = .ok i → step s = exec i { s with input := rest }

/-- 44_commands.md R200: EXECUTE, line by line, with the fields of the word read as numbers. -/
def Obligations.StepFollowsExecutePseudocode : Prop :=
  ∀ (s : State) (t : Transaction) (rest : List HostEvent), s.input = .command t :: rest →
    step s =
      let s' := { s with input := rest }
      let op := wordOp t.word
      if s.st = .faulted ∧ ¬ (wordOk t.word ∧ (op = 1 ∨ op = 5) ∧ t.payload.length = 0) then respond [] s'
      else if ¬ wordOk t.word then raiseFault .illegalCommand s'
      else if t.payload.length ≠ expectedPayload t.word then raiseFault .payloadMismatch s'
      else if op = 1 then exec (.init (if wordV t.word = 0 then .sha256 else .sha512)) s'
      else if op = 2 then exec (.update t.payload) s'
      else if op = 3 then exec .finalize s'
      else if op = 4 then exec .readDigest s'
      else exec .status s'

/-- 20_memory.md section 5: a step takes exactly the first event the core received. That with none it changes nothing is
log entry 5, and that the events still pending outlive a reset is log entry 6; both are the model's reading. -/
def Obligations.StepTakesOneEventInOrder : Prop :=
  ∀ s u : State, step s = .next u → u.input = s.input.tail ∧ (s.input = [] → u = s)

/-! ### The commands -/

/-- 44_commands.md R201: INIT, encoded 0x1 or 0x11, runs in every state and gives this state, whatever the context
held. -/
def Obligations.InitStartsAComputation : Prop :=
  ∀ (v : Variant) (s : State),
    decode ⟨if v = .sha256 then 0x00000001 else 0x00000011, []⟩ = .ok (.init v) ∧
    exec (.init v) s =
      .next { s with
        st := .fresh, var := some v, H := some (accumulatorOf v (iv v)), buf := some [], cnt := some 0, dout := none
        fcode := .noFault, responses := s.responses ++ [⟨statusOf 1 (variantNumber v) 0 0, []⟩] }

/-- 44_commands.md R202: UPDATE, encoded `n << 16 | 2`, faults with code 2 in Idle, 1 in Finalized, 4 past 2^64 - 1, is
ignored in Faulted, and otherwise absorbs its payload, for every payload and every computation in progress. -/
def Obligations.UpdateAbsorbsThePayloadOrFaults : Prop :=
  ∀ (p : List Byte) (s : State),
    (p.length ≤ 65535 → decode ⟨BitVec.ofNat 32 (65536 * p.length + 2), p⟩ = .ok (.update p)) ∧
    (s.st = .faulted → exec (.update p) s = .next { s with responses := s.responses ++ [⟨statusWord s, []⟩] }) ∧
    (s.st = .idle → exec (.update p) s = raiseFault .notInitialised s) ∧
    (s.st = .finalized → exec (.update p) s = raiseFault .useAfterFinalize s) ∧
    ∀ (v : Variant) (h : Words8 v.w) (buf : List Byte) (c : BitVec 64), Open s → s.fcode = .noFault →
      s.var = some v → s.H = some (accumulatorOf v h) → s.buf = some buf → buf.length < blockBytes v → s.cnt = some c →
      (c.toNat + 8 * p.length > 2 ^ 64 - 1 → exec (.update p) s = raiseFault .lengthOverflow s) ∧
      (c.toNat + 8 * p.length ≤ 2 ^ 64 - 1 →
        exec (.update p) s =
          .next { s with
            st := .accepting
            H := some (accumulatorOf v (absorb v h buf p).1), buf := some (absorb v h buf p).2
            cnt := some (BitVec.ofNat 64 (c.toNat + 8 * p.length))
            responses := s.responses ++ [⟨statusOf 2 (variantNumber v) 0 (absorb v h buf p).2.length, []⟩] })

/-- 44_commands.md section on ABSORB (R203 is its byte loop; the counts are the spec's own inference): the loop
compresses, in order, the complete blocks of the pending bytes followed by the payload, and keeps the rest. -/
def Obligations.AbsorbCompressesEachCompleteBlock : Prop :=
  ∀ (v : Variant) (h : Words8 v.w) (buf p : List Byte), buf.length < blockBytes v →
    absorb v h buf p = (processBlocks v h (blocks v (buf ++ p)), tailBytes v (buf ++ p)) ∧
    (blocks v (buf ++ p)).length = (buf.length + p.length) / blockBytes v ∧
    (∀ b ∈ blocks v (buf ++ p), b.length = blockBytes v) ∧
    (blocks v (buf ++ p)).flatten ++ tailBytes v (buf ++ p) = buf ++ p ∧
    (absorb v h buf p).2.length = (buf.length + p.length) % blockBytes v

/-- 44_commands.md R205: FINALIZE, encoded 0x3, faults with code 2 in Idle and 1 in Finalized, is ignored in Faulted,
and otherwise compresses the padded blocks in order, produces the digest, empties `buf`, leaves `cnt`, and responds the
digest. That it does so in Fresh is the spec's own inference, marked "[derived: the `Fresh` case, from the source's
naming only `Finalized` as an error state]". -/
def Obligations.FinalizeProducesTheDigestOrFaults : Prop :=
  ∀ s : State,
    decode ⟨0x00000003, []⟩ = .ok .finalize ∧
    (s.st = .faulted → exec .finalize s = .next { s with responses := s.responses ++ [⟨statusWord s, []⟩] }) ∧
    (s.st = .idle → exec .finalize s = raiseFault .notInitialised s) ∧
    (s.st = .finalized → exec .finalize s = raiseFault .useAfterFinalize s) ∧
    ∀ (v : Variant) (h : Words8 v.w) (buf : List Byte) (c : BitVec 64), Open s → s.fcode = .noFault →
      s.var = some v → s.H = some (accumulatorOf v h) → s.buf = some buf → buf.length < blockBytes v → s.cnt = some c →
      exec .finalize s =
        .next { s with
          st := .finalized
          H := some (accumulatorOf v (processBlocks v h (pad v buf c))), buf := some []
          dout := some (serialize v (processBlocks v h (pad v buf c)))
          responses :=
            s.responses ++ [⟨statusOf 3 (variantNumber v) 0 0, serialize v (processBlocks v h (pad v buf c))⟩] }

/-- 44_commands.md R206: READ_DIGEST, encoded 0x4, returns `dout` in Finalized and changes nothing, raises code 5 in
Idle, Fresh and Accepting, and is ignored in Faulted. -/
def Obligations.ReadDigestReturnsTheDigestOrFaults : Prop :=
  ∀ s : State,
    decode ⟨0x00000004, []⟩ = .ok .readDigest ∧
    (∀ d, s.st = .finalized → s.dout = some d →
      exec .readDigest s = .next { s with responses := s.responses ++ [⟨statusWord s, d⟩] }) ∧
    (s.st = .idle ∨ s.st = .fresh ∨ s.st = .accepting → exec .readDigest s = raiseFault .digestUnavailable s) ∧
    (s.st = .faulted → exec .readDigest s = .next { s with responses := s.responses ++ [⟨statusWord s, []⟩] })

/-- 44_commands.md R207: STATUS, encoded 0x5, runs in every state, Faulted too, changes nothing and returns the status
word. -/
def Obligations.StatusReturnsTheStatusWord : Prop :=
  ∀ s : State, decode ⟨0x00000005, []⟩ = .ok .status ∧
    exec .status s = .next { s with responses := s.responses ++ [⟨statusWord s, []⟩] }

/-- 10_state.md section 6 (the access table, the spec's own inference): what each command leaves unchanged whenever it
gives a next state, faulting or not. That a fault from Finalized keeps `dout` is log entry 15. -/
def Obligations.CommandsChangeOnlyTheirOwnState : Prop :=
  ∀ (i : Instr) (s u : State), exec i s = .next u →
    u.input = s.input ∧ (∃ r, u.responses = s.responses ++ [r]) ∧
    ((∀ v, i ≠ .init v) → u.var = s.var) ∧
    ((∀ v, i ≠ .init v) → (∀ p, i ≠ .update p) → u.cnt = s.cnt) ∧
    ((∀ v, i ≠ .init v) → i ≠ .finalize → u.dout = s.dout) ∧
    ((∀ v, i ≠ .init v) → (∀ p, i ≠ .update p) → i ≠ .finalize → u.H = s.H ∧ u.buf = s.buf) ∧
    ((∀ v, i ≠ .init v) → s.st = .faulted ∨ u.st ≠ .faulted → u.fcode = s.fcode) ∧
    (i = .readDigest → u.st = s.st ∨ u.st = .faulted) ∧ (i = .status → u.st = s.st)

/-! ### Faults -/

/-- 60_exceptions.md R302: fault entry sets the state and the code unless a fault is already held, and responds the
status word with no data. That a fault from Finalized keeps `dout`, against 10_state.md R26, is log entry 15. -/
def Obligations.FaultEntryKeepsTheFirstFault : Prop :=
  ∀ (c : FaultCode) (s : State),
    (s.st ≠ .faulted →
      ∃ sw, raiseFault c s =
        .next { s with st := .faulted, fcode := c, responses := s.responses ++ [⟨sw, []⟩] } ∧
        sw.toNat % 8 = 4 ∧ sw.toNat / 16 % 16 = faultNumber c) ∧
    (s.st = .faulted →
      ∃ sw, raiseFault c s = .next { s with responses := s.responses ++ [⟨sw, []⟩] } ∧
        sw.toNat % 8 = 4 ∧ sw.toNat / 16 % 16 = faultNumber s.fcode)

/-- 60_exceptions.md R303 for every transaction: a step into Faulted writes only `st` and `fcode` of the context, and
its response holds no data. That `dout` is kept, against 10_state.md R26, is log entry 15. -/
def Obligations.FaultingCommandWritesOnlyStateAndCode : Prop :=
  ∀ s u : State, s.st ≠ .faulted → step s = .next u → u.st = .faulted →
    u.var = s.var ∧ u.H = s.H ∧ u.buf = s.buf ∧ u.cnt = s.cnt ∧ u.dout = s.dout ∧ u.fcode ≠ .noFault ∧
      ∃ sw, u.responses = s.responses ++ [⟨sw, []⟩]

/-- 60_exceptions.md R304: in Faulted, INIT and STATUS with an empty payload run; every other transaction is answered
with the status word, no data, and changes nothing. -/
def Obligations.FaultedIgnoresAllButInitAndStatus : Prop :=
  ∀ (s : State) (t : Transaction) (rest : List HostEvent), s.input = .command t :: rest → s.st = .faulted →
    (wordOk t.word → wordOp t.word = 1 → t.payload = [] →
      step s = exec (.init (if wordV t.word = 0 then .sha256 else .sha512)) { s with input := rest }) ∧
    (wordOk t.word → wordOp t.word = 5 → t.payload = [] → step s = exec .status { s with input := rest }) ∧
    (¬ RunsInFaulted t →
      ∃ sw, step s = .next { s with input := rest, responses := s.responses ++ [⟨sw, []⟩] } ∧
        sw.toNat % 8 = 4 ∧ sw.toNat / 16 % 16 = faultNumber s.fcode)

/-- 60_exceptions.md R307 (and the table of section 3): a transaction outside Faulted faults exactly when a condition
holds, with the first code in the order of the rule; in Faulted no new code is raised. -/
def Obligations.FirstFaultInPriorityIsReported : Prop :=
  ∀ (s : State) (t : Transaction) (rest : List HostEvent), Inv s → s.input = .command t :: rest →
    ∃ u, step s = .next u ∧
      (s.st = .faulted → ¬ RunsInFaulted t → u.st = .faulted ∧ u.fcode = s.fcode) ∧
      (s.st ≠ .faulted →
        (∀ c, raisedFault s t = some c → u.st = .faulted ∧ u.fcode = c) ∧
        (raisedFault s t = none → u.st ≠ .faulted ∧ u.fcode = .noFault))

/-- 60_exceptions.md section 3: Faulted is left only by INIT, to Fresh, or by reset, to Idle; until then `fcode` holds
the first fault. -/
def Obligations.FaultedIsLeftOnlyByInitOrReset : Prop :=
  ∀ s u : State, s.st = .faulted → step s = .next u →
    (u.st = .faulted ∧ u.fcode = s.fcode) ∨
    (u.st = .fresh ∧ u.fcode = .noFault ∧
      ∃ t v rest, s.input = .command t :: rest ∧ decode t = .ok (.init v)) ∨
    (u.st = .idle ∧ u.fcode = .noFault ∧
      ∃ e rest, s.input = e :: rest ∧ ∀ t, e ≠ .command t)

/-! ### Reset -/

/-- 70_reset_and_hazards.md R350: every kind of reset gives the state of 10_state.md R44 with a zero status word, from
every state, and nothing else enters Idle. -/
def Obligations.ResetGivesIdle : Prop :=
  (∀ (s : State) (e : HostEvent) (rest : List HostEvent), s.input = e :: rest → (∀ t, e ≠ .command t) →
    ∃ u, step s = .next u ∧ u.st = .idle ∧ u.fcode = .noFault ∧ u.var = none ∧ u.H = none ∧ u.buf = none ∧
      u.cnt = none ∧ u.dout = none ∧ statusWord u = 0) ∧
  (∀ s u : State, step s = .next u → u.st = .idle → s.st ≠ .idle →
    ∃ e rest, s.input = e :: rest ∧ ∀ t, e ≠ .command t)

/-- 70_reset_and_hazards.md section 1: a reset during a command gives no response and the same state as a reset before
the command, whatever the command was. That the two ends of the channel outlive a reset is log entry 6. -/
def Obligations.ResetDuringACommandLeavesNoTrace : Prop :=
  ∀ (s : State) (t : Transaction) (rest : List HostEvent),
    step { s with input := .resetDuring t :: rest } = step { s with input := .reset :: rest } ∧
    ∃ u, step { s with input := .resetDuring t :: rest } = .next u ∧ u.st = .idle ∧ NoComputation u ∧
      u.responses = s.responses ∧ u.input = rest

/-! ### States, responses and the status word -/

/-- 10_state.md section 3, the transition table (the spec's own inference): no other transition of `st` exists. -/
def Obligations.StateTransitionsAreThoseOfTheTable : Prop :=
  ∀ s u : State, step s = .next u →
    (s.input = [] ∧ u.st = s.st) ∨
    ∃ e rest, s.input = e :: rest ∧
      (((∀ t, e ≠ .command t) ∧ u.st = .idle) ∨
       ∃ t, e = .command t ∧
        ((∃ v, decode t = .ok (.init v) ∧ u.st = .fresh) ∨
         (∃ p, decode t = .ok (.update p) ∧ Open s ∧ u.st = .accepting) ∨
         (decode t = .ok .finalize ∧ Open s ∧ u.st = .finalized) ∨
         (decode t = .ok .readDigest ∧ s.st = .finalized ∧ u.st = .finalized) ∨
         (decode t = .ok .status ∧ u.st = s.st) ∨
         (s.st ≠ .faulted ∧ u.st = .faulted ∧ u.fcode ≠ .noFault) ∨
         (s.st = .faulted ∧ u.st = .faulted ∧ (∀ v, decode t ≠ .ok (.init v)) ∧ decode t ≠ .ok .status)))

/-- 30_encoding.md section 2: each command gets one response, with the status word of the context after it, and digest
bytes only from a FINALIZE or READ_DIGEST that does not fault. -/
def Obligations.EachCommandGetsOneResponse : Prop :=
  ∀ (s u : State) (t : Transaction) (rest : List HostEvent), s.input = .command t :: rest → step s = .next u →
    ∃ d, u.responses = s.responses ++ [⟨statusWord u, d⟩] ∧
      ((decode t = .ok .finalize ∨ decode t = .ok .readDigest) → u.st = .finalized → u.dout = some d) ∧
      (¬ ((decode t = .ok .finalize ∨ decode t = .ok .readDigest) ∧ u.st = .finalized) → d = [])

/-- 10_state.md R33, R34, R36, R37: the layout of the status word and the range of each field. -/
def Obligations.StatusWordLayout : Prop :=
  statusWord State.reset = 0 ∧
  ∀ s : State, Inv s →
    (statusWord s).toNat =
      stateNumber s.st + 8 * (if s.var = some .sha512 then 1 else 0) + 16 * faultNumber s.fcode +
        256 * (s.buf.getD []).length ∧
    (s.buf.getD []).length ≤ 127 ∧ (s.var = some .sha256 → (s.buf.getD []).length ≤ 63) ∧
    (s.st = .idle ∨ s.st = .fresh ∨ s.st = .finalized → (s.buf.getD []).length = 0) ∧
    (faultNumber s.fcode ≠ 0 ↔ stateNumber s.st = 4)

/-- 93_implementation_defined.md I6, I7, I8: a host decodes every status word the core gives, and only words with no
reserved bit, STATE or FAULT value decode. -/
def Obligations.StatusWordsDecodeAndReservedValuesDoNot : Prop :=
  (∀ s : State, decodeStatus (statusWord s) =
    some ⟨s.st, variantStatus s.var, s.fcode, bufferStatus s.buf⟩) ∧
  ∀ sw : BitVec 32, decodeStatus sw = none ↔ sw.toNat ≥ 2 ^ 15 ∨ sw.toNat % 8 ≥ 5 ∨ sw.toNat / 16 % 16 ≥ 7

/-- 10_state.md R26: no step changes `dout` while `st` is Finalized, and after INIT or reset it is absent. -/
def Obligations.DigestDoesNotChangeWhileFinalized : Prop :=
  ∀ s u : State, step s = .next u →
    (s.st = .finalized → u.st = .finalized → u.dout = s.dout) ∧
    (u.st = .idle → s.st ≠ .idle → u.dout = none) ∧ (u.st = .fresh → s.st ≠ .fresh → u.dout = none)

/-- 10_state.md R21: `var` is written by INIT from V, is absent after reset, and no other command writes it. -/
def Obligations.VariantIsFixedBetweenInits : Prop :=
  ∀ s u : State, step s = .next u →
    (∀ e rest, s.input = e :: rest → (∀ t, e ≠ .command t) → u.var = none) ∧
    (∀ t rest, s.input = .command t :: rest →
      (∀ v, decode t = .ok (.init v) → u.var = some v) ∧ ((∀ v, decode t ≠ .ok (.init v)) → u.var = s.var))

/-- 44_commands.md section on INIT and 20_memory.md section 4: two INITs in a row leave the context of one, and
READ_DIGEST twice gives the same response twice. -/
def Obligations.RepeatedInitAndReadChangeNothingMore : Prop :=
  (∀ (v : Variant) (s : State), ∃ u r,
    execAll [.init v] s = .next u ∧
      execAll [.init v, .init v] s = .next { u with responses := u.responses ++ [r] }) ∧
  ∀ (s : State) (d : List Byte), s.st = .finalized → s.dout = some d →
    ∃ r, execAll [.readDigest, .readDigest] s = .next { s with responses := s.responses ++ [r, r] }

/-! ### The invariant -/

/-- The context after reset satisfies the invariant. -/
def Obligations.InvariantHoldsAfterReset : Prop := Inv State.reset

/-- 10_state.md section 3 (the spec's own inference): every step from a state with the invariant leads to one with it;
in particular a digest in `dout` is always the digest of the bytes consumed, in Faulted too (log entry 15). -/
def Obligations.EveryStepKeepsTheInvariant : Prop :=
  ∀ s u : State, Inv s → step s = .next u → Inv u

/-- 44_commands.md section on termination and 00_scope.md R17: from a state with the invariant no absent value is
read, so every step gives a next state. -/
def Obligations.NoStepStopsUnderTheInvariant : Prop :=
  ∀ s : State, Inv s → ∃ u, step s = .next u

/-- 10_state.md section 3: in a computation in progress `buf` is shorter than a block, `cnt` is a multiple of 8 and
`len(buf)` is the message length modulo the block size; in Fresh the accumulator is the IV. -/
def Obligations.OpenComputationCountsItsBytes : Prop :=
  ∀ s : State, Inv s → Open s →
    ∃ (v : Variant) (b : List Byte) (c : BitVec 64), s.var = some v ∧ s.buf = some b ∧ s.cnt = some c ∧
      b.length < blockBytes v ∧ c.toNat % 8 = 0 ∧ b.length = c.toNat / 8 % blockBytes v ∧
      (s.st = .fresh → b = [] ∧ c = 0 ∧ s.H = some (accumulatorOf v (iv v)))

/-! ### Digests of messages -/

/-- UPDATE continues the computation over the message with the computation over the message and the payload. -/
def Obligations.UpdateExtendsTheMessage : Prop :=
  ∀ (v : Variant) (m p : List Byte) (s : State), Computing v m s → Open s →
    8 * (m.length + p.length) ≤ 2 ^ 64 - 1 →
    ∃ u, exec (.update p) s = .next u ∧ u.st = .accepting ∧ Computing v (m ++ p) u

/-- FINALIZE of the computation over `m` responds the digest of `m`: the padding of the pending bytes agrees with the
padding of the whole message (43_padding.md section on the number of blocks). -/
def Obligations.FinalizeGivesTheDigestOfTheMessage : Prop :=
  ∀ (v : Variant) (m : List Byte) (s : State), Computing v m s → Open s →
    ∃ u sw, exec .finalize s = .next u ∧ u.st = .finalized ∧ Finished v m u ∧
      u.responses = s.responses ++ [⟨sw, messageDigest v m⟩]

/-- 44_commands.md section on chunking (the spec's own inference): from every state, INIT, any UPDATEs and FINALIZE end
in Finalized with the digest of the concatenated chunks, for any split, empty chunks included. -/
def Obligations.DigestIsTheSameForEveryChunking : Prop :=
  ∀ (v : Variant) (chunks : List (List Byte)) (s : State) (rest : List HostEvent),
    (∀ c ∈ chunks, c.length ≤ 65535) → 8 * chunks.flatten.length ≤ 2 ^ 64 - 1 →
    ∃ u, Host.Core.run Sys2Proof.core (chunks.length + 2)
        { s with input := send (hashChunks v chunks) ++ rest } = .next u ∧
      u.st = .finalized ∧ u.fcode = .noFault ∧ u.dout = some (messageDigest v chunks.flatten) ∧ u.input = rest ∧
      u.responses.getLast? = some ⟨statusOf 3 (variantNumber v) 0 0, messageDigest v chunks.flatten⟩

/-- 45_digest_and_oneshot.md section on CALC: from every state the one-shot pseudo-command returns the digest of its
message with status 0x3 or 0xb, for every message below 2^61 bytes. -/
def Obligations.OneShotReturnsTheMessageDigest : Prop :=
  ∀ (v : Variant) (m : List Byte) (s : State), m.length < 2 ^ 61 →
    ∃ u, Host.Core.run Sys2Proof.core (oneShot v m).length { s with input := send (oneShot v m) } = .next u ∧
      u.st = .finalized ∧ u.dout = some (messageDigest v m) ∧
      u.responses.getLast? = some ⟨if v = .sha256 then 0x00000003 else 0x0000000b, messageDigest v m⟩

/-- 30_encoding.md R83: UPDATEN sends the message in chunks of at most 65535 bytes, in order, one UPDATE at least. -/
def Obligations.UpdateNSplitsTheMessage : Prop :=
  ∀ m : List Byte,
    (updateNChunks m).flatten = m ∧ (∀ c ∈ updateNChunks m, c.length ≤ 65535) ∧
    (updateNChunks m).length = max 1 ((m.length + 65534) / 65535) ∧
    (∀ i, i + 1 < (updateNChunks m).length → ((updateNChunks m).getD i []).length = 65535)

/-- 10_state.md section 4 and 60_exceptions.md section 4: two contexts that differ only in `H` and in the bytes of
`buf` give the same response to every transaction but a well-formed FINALIZE. -/
def Obligations.HashStateIsNotObservable : Prop :=
  ∀ (s₁ s₂ u₁ u₂ : State) (t : Transaction) (rest : List HostEvent), Inv s₁ → Inv s₂ →
    s₁.input = .command t :: rest → s₂.input = .command t :: rest → decode t ≠ .ok .finalize →
    s₁.st = s₂.st → s₁.var = s₂.var → s₁.cnt = s₂.cnt → s₁.dout = s₂.dout → s₁.fcode = s₂.fcode →
    s₁.buf.map List.length = s₂.buf.map List.length →
    step s₁ = .next u₁ → step s₂ = .next u₂ → u₁.responses.getLast? = u₂.responses.getLast?

/-! ### Padding and byte order -/

/-- 43_padding.md sections on the blocks (their facts are the spec's own inference): one or two blocks of `B` bytes,
which are the pending bytes, the marker, zeros and the length field. -/
def Obligations.PaddedBlocksAreWhole : Prop :=
  ∀ (v : Variant) (buf : List Byte) (c : BitVec 64), buf.length < blockBytes v →
    (∀ b ∈ pad v buf c, b.length = blockBytes v) ∧
    ((pad v buf c).length = if buf.length < blockBytes v - lengthBytes v then 1 else 2) ∧
    (∃ z, (pad v buf c).flatten = buf ++ [0x80] ++ List.replicate z 0 ++ lengthField v c ∧
      lengthBytes v + 1 ≤ 1 + z + lengthBytes v ∧ 1 + z + lengthBytes v ≤ blockBytes v + lengthBytes v)

/-- 43_padding.md R172: the length field is `L` big-endian bytes of the counter; its upper 8 bytes are zero for
SHA-512. -/
def Obligations.LengthFieldIsTheBigEndianCount : Prop :=
  ∀ c : BitVec 64,
    lengthField .sha256 c = toBE 8 c.toNat ∧ lengthField .sha512 c = List.replicate 8 0 ++ toBE 8 c.toNat ∧
    ∀ v, (lengthField v c).length = lengthBytes v ∧ fromBE (lengthField v c) = c.toNat

/-- 00_scope.md R14: `BE_n` puts bits `8(n-1-k)+7 .. 8(n-1-k)` in byte `k`, and `fromBE`, the sum of the
rule, is its inverse, both ways. -/
def Obligations.BigEndianConversionsAreInverse : Prop :=
  (∀ n v : Nat, v < 2 ^ (8 * n) →
    (toBE n v).length = n ∧ (∀ k, k < n → ((toBE n v).getD k 0).toNat = v / 2 ^ (8 * (n - 1 - k)) % 256) ∧
      fromBE (toBE n v) = v) ∧
  ∀ s : List Byte,
    fromBE s = ∑ k ∈ Finset.range s.length, (s.getD k 0).toNat * 2 ^ (8 * (s.length - 1 - k)) ∧
    fromBE s < 2 ^ (8 * s.length) ∧ toBE s.length (fromBE s) = s

/-- 42_schedule.md section on DECODE: a block becomes sixteen words, each the big-endian number of its bytes, and every
byte of the block enters exactly one word. -/
def Obligations.BlockBytesEnterTheirWords : Prop :=
  ∀ (v : Variant) (blk : List Byte), blk.length = blockBytes v →
    (decodeBlock v blk).length = 16 ∧ (decodeBlock v blk).flatMap (fun x => toBE v.wb x.toNat) = blk

/-- 45_digest_and_oneshot.md R250: digest byte `k` is byte `k mod wb` of `BE_wb(H[k div wb])`, 32 or 64 bytes
in all. -/
def Obligations.DigestBytesAreTheWordsInOrder : Prop :=
  ∀ (v : Variant) (h : Words8 v.w),
    (serialize v h).length = (if v = .sha256 then 32 else 64) ∧ (serialize v h).length = 8 * v.wb ∧
    ∀ k, k < 8 * v.wb →
      (serialize v h).getD k 0 = (toBE v.wb (h.toList.getD (k / v.wb) 0).toNat).getD (k % v.wb) 0

/-- 45_digest_and_oneshot.md section on lengths: in Finalized, `dout` has 32 bytes under SHA-256 and 64 under SHA-512,
whatever the message. -/
def Obligations.DigestLengthDependsOnlyOnTheVariant : Prop :=
  ∀ s : State, Inv s → s.st = .finalized →
    ∃ d, s.dout = some d ∧ (s.var = some .sha256 ∧ d.length = 32 ∨ s.var = some .sha512 ∧ d.length = 64)

/-! ### The datapath -/

/-- 40_helpers.md section 1 (formulas of general knowledge, log entry 12): rotation and shift bit by bit. -/
def Obligations.RotateAndShiftMoveBits : Prop :=
  ∀ (w n i : Nat) (x : BitVec w), 0 < n → n < w → i < w →
    (rotr n x).getLsbD i = x.getLsbD ((i + n) % w) ∧ (shr n x).getLsbD i = (decide (i + n < w) && x.getLsbD (i + n))

/-- 40_helpers.md section 2 (formulas of general knowledge, log entry 12): choose and majority bit by bit. -/
def Obligations.ChooseAndMajorityActBitwise : Prop :=
  ∀ (w i : Nat) (x y z : BitVec w), i < w →
    (ch x y z).getLsbD i = (if x.getLsbD i then y.getLsbD i else z.getLsbD i) ∧
    (maj x y z).getLsbD i =
      decide (2 ≤ (x.getLsbD i).toNat + (y.getLsbD i).toNat + (z.getLsbD i).toNat)

/-- 40_helpers.md section 3 (amounts of general knowledge, log entry 12): the four mixes are linear over XOR, and their
values on all ones. -/
def Obligations.SigmaMixesAreLinear : Prop :=
  ∀ v : Variant,
    (∀ x y : Word v,
      bigSigma0 v (x ^^^ y) = bigSigma0 v x ^^^ bigSigma0 v y ∧
      bigSigma1 v (x ^^^ y) = bigSigma1 v x ^^^ bigSigma1 v y ∧
      smallSigma0 v (x ^^^ y) = smallSigma0 v x ^^^ smallSigma0 v y ∧
      smallSigma1 v (x ^^^ y) = smallSigma1 v x ^^^ smallSigma1 v y) ∧
    bigSigma0 v (-1) = -1 ∧ bigSigma1 v (-1) = -1 ∧
    (smallSigma0 v (-1)).toNat = 2 ^ (if v = .sha256 then 29 else 57) - 1 ∧
    (smallSigma1 v (-1)).toNat = 2 ^ (if v = .sha256 then 22 else 58) - 1

/-- 42_schedule.md R152: the recurrence for `16 ≤ t < R`, over words already computed. -/
def Obligations.ScheduleFollowsTheRecurrence : Prop :=
  ∀ (v : Variant) (m : List (Word v)), m.length = 16 →
    (expand v m).length = (if v = .sha256 then 64 else 80) ∧
    ∀ t, 16 ≤ t → t < (if v = .sha256 then 64 else 80) →
      (expand v m).getD t 0 =
        (expand v m).getD (t - 16) 0 + smallSigma0 v ((expand v m).getD (t - 15) 0) + (expand v m).getD (t - 7) 0 +
          smallSigma1 v ((expand v m).getD (t - 2) 0)

/-- 42_schedule.md section on EXPAND (the first clause is general knowledge, log entry 12): the first sixteen schedule
words are the block's words, and the all-zero block gives the all-zero schedule. -/
def Obligations.ScheduleStartsWithTheBlock : Prop :=
  ∀ (v : Variant) (m : List (Word v)), m.length = 16 →
    (∀ t, t < 16 → (expand v m).getD t 0 = m.getD t 0) ∧
    ((∀ x ∈ m, x = 0) → ∀ x ∈ expand v m, x = 0)

/-- 41_compression.md sections on ROUND and COMPRESS (T1 and T2 are general knowledge, log entry 12): exactly `R`
rounds in increasing order, each updating all registers at once, from a copy of `H`, then the sums. -/
def Obligations.CompressionRunsEveryRound : Prop :=
  ∀ (v : Variant) (h : Words8 v.w) (w : List (Word v)),
    ∃ regs : Nat → Words8 v.w, regs 0 = h ∧
      (∀ t, t < (if v = .sha256 then 64 else 80) →
        let r := regs t
        let t1 := r.h + bigSigma1 v r.e + ch r.e r.f r.g + kConst v t + w.getD t 0
        let t2 := bigSigma0 v r.a + maj r.a r.b r.c
        regs (t + 1) = ⟨t1 + t2, r.a, r.b, r.c, r.d + t1, r.e, r.f, r.g⟩) ∧
      let r := regs (if v = .sha256 then 64 else 80)
      compress v h w = ⟨h.a + r.a, h.b + r.b, h.c + r.c, h.d + r.d, h.e + r.e, h.f + r.f, h.g + r.g, h.h + r.h⟩

/-- 10_state.md section 5 (values of general knowledge, log entry 12; the relation is the spec's own inference): the
tables have 64 and 80 entries and the SHA-256 ones are the upper halves of the SHA-512 ones. -/
def Obligations.ConstantTablesAgreeAcrossVariants : Prop :=
  (kTable .sha256).length = 64 ∧ (kTable .sha512).length = 80 ∧
  (∀ t, t < 64 → (kConst .sha512 t).toNat / 2 ^ 32 = (kConst .sha256 t).toNat) ∧
  ((iv .sha512).toList.map fun x => x.toNat / 2 ^ 32) = (iv .sha256).toList.map fun x => x.toNat

/-! ### The platform and the host's tools -/

/-- 20_memory.md R67 (the placement of channels is log entry 8): a step of one instance, and an event sent to one,
change no other instance. -/
def Obligations.InstancesDoNotInteract : Prop :=
  (∀ (k : Nat) (p q : Platform), platformStep k p = .next q →
    q.cores.length = p.cores.length ∧ q.binding = p.binding ∧
    (∀ j, j ≠ k → q.cores[j]? = p.cores[j]?) ∧
    (∀ s, p.cores[k]? = some s → ∃ s', step s = .next s' ∧ q.cores[k]? = some s')) ∧
  ∀ (place : Nat) (e : HostEvent) (p : Platform) (k : Nat), p.binding.Nodup → p.binding[k]? = some place →
    (∀ j, j ≠ k → (platformSend place e p).cores[j]? = p.cores[j]?) ∧
    ∀ s, p.cores[k]? = some s →
      (platformSend place e p).cores[k]? = some { s with input := s.input ++ [e] }

/-- 45_digest_and_oneshot.md R253 (its order of the nibbles is general knowledge, log entry 12): the literal of a
digest parses back to it, in either case of letters. -/
def Obligations.DigestLiteralsParse : Prop :=
  ∀ (v : Variant) (d : List Byte), d.length = digestBytes v →
    parseLiteral v (hexText d) = .ok d ∧ parseLiteral v ((hexText d).map Char.toUpper) = .ok d

/-- 45_digest_and_oneshot.md R254: a string with a character outside `0-9a-fA-F`, or of another length than `2 * D`, is
rejected with InvalidEncoding and gives no digest; no other string is rejected. -/
def Obligations.MalformedLiteralsAreRejected : Prop :=
  ∀ (v : Variant) (cs : List Char),
    (parseLiteral v cs = .error .invalidEncoding ↔
      cs.length ≠ 2 * (if v = .sha256 then 32 else 64) ∨
        ∃ c ∈ cs, ¬ ('0' ≤ c ∧ c ≤ '9' ∨ 'a' ≤ c ∧ c ≤ 'f' ∨ 'A' ≤ c ∧ c ≤ 'F')) ∧
    ∀ d, parseLiteral v cs = .ok d → d.length = (if v = .sha256 then 32 else 64)

/-- 45_digest_and_oneshot.md R252: digests are equal exactly when they have the same length and the same byte at every
index. -/
def Obligations.DigestEqualityIsBytewise : Prop :=
  ∀ x y : List Byte, digestEqual x y = true ↔ x.length = y.length ∧ ∀ k, k < x.length → x.getD k 0 = y.getD k 0

/-- 30_encoding.md R81: an UPDATE line with the payload in hexadecimal assembles to the command's encoding, for every
payload the encoding admits. The rule says only that a payload has at most 65535 bytes; that a longer one is rejected
under the name `payloadTooLong` is the model's choice, log entry 10. -/
def Obligations.UpdateLinesAssemble : Prop :=
  ∀ bs : List Byte,
    (bs.length ≤ 65535 →
      assembleLine (['u', 'p', 'd', 'a', 't', 'e', ' ', 'x', '"'] ++ hexText bs ++ ['"', ' ', ';', 'c']) =
        .ok [encode (.update bs)]) ∧
    (65535 < bs.length →
      assembleLine (['U', 'P', 'D', 'A', 'T', 'E', ' ', 'x', '"'] ++ hexText bs ++ ['"']) = .error .payloadTooLong)
end

