-- ==== Sys2Proof/Laws/State.lean ====
section
/-! SUPPORT. One lemma per field per update of the state, so that no proof unfolds a record update. -/

namespace Sys2Proof.Machine

variable (s : State)

/-! ### withResponse -/

@[simp] theorem State.withResponse_st (d : List Byte) : (s.withResponse d).st = s.st := rfl
@[simp] theorem State.withResponse_var (d : List Byte) : (s.withResponse d).var = s.var := rfl
@[simp] theorem State.withResponse_H (d : List Byte) : (s.withResponse d).H = s.H := rfl
@[simp] theorem State.withResponse_buf (d : List Byte) : (s.withResponse d).buf = s.buf := rfl
@[simp] theorem State.withResponse_cnt (d : List Byte) : (s.withResponse d).cnt = s.cnt := rfl
@[simp] theorem State.withResponse_dout (d : List Byte) : (s.withResponse d).dout = s.dout := rfl
@[simp] theorem State.withResponse_fcode (d : List Byte) : (s.withResponse d).fcode = s.fcode := rfl
@[simp] theorem State.withResponse_input (d : List Byte) : (s.withResponse d).input = s.input := rfl
@[simp] theorem State.withResponse_responses (d : List Byte) : (s.withResponse d).responses = s.responses ++ [⟨statusWord s, d⟩] := rfl

/-! ### startComputation -/

@[simp] theorem State.startComputation_st (v : Variant) : (s.startComputation v).st = .fresh := rfl
@[simp] theorem State.startComputation_var (v : Variant) : (s.startComputation v).var = some v := rfl
@[simp] theorem State.startComputation_H (v : Variant) : (s.startComputation v).H = some (accumulatorOf v (iv v)) := rfl
@[simp] theorem State.startComputation_buf (v : Variant) : (s.startComputation v).buf = some [] := rfl
@[simp] theorem State.startComputation_cnt (v : Variant) : (s.startComputation v).cnt = some 0 := rfl
@[simp] theorem State.startComputation_dout (v : Variant) : (s.startComputation v).dout = none := rfl
@[simp] theorem State.startComputation_fcode (v : Variant) : (s.startComputation v).fcode = .noFault := rfl
@[simp] theorem State.startComputation_input (v : Variant) : (s.startComputation v).input = s.input := rfl
@[simp] theorem State.startComputation_responses (v : Variant) : (s.startComputation v).responses = s.responses := rfl

/-! ### putAbsorbed -/

@[simp] theorem State.putAbsorbed_st (h : Accumulator) (b : List Byte) (c : BitVec 64) : (s.putAbsorbed h b c).st = .accepting := rfl
@[simp] theorem State.putAbsorbed_var (h : Accumulator) (b : List Byte) (c : BitVec 64) : (s.putAbsorbed h b c).var = s.var := rfl
@[simp] theorem State.putAbsorbed_H (h : Accumulator) (b : List Byte) (c : BitVec 64) : (s.putAbsorbed h b c).H = some h := rfl
@[simp] theorem State.putAbsorbed_buf (h : Accumulator) (b : List Byte) (c : BitVec 64) : (s.putAbsorbed h b c).buf = some b := rfl
@[simp] theorem State.putAbsorbed_cnt (h : Accumulator) (b : List Byte) (c : BitVec 64) : (s.putAbsorbed h b c).cnt = some c := rfl
@[simp] theorem State.putAbsorbed_dout (h : Accumulator) (b : List Byte) (c : BitVec 64) : (s.putAbsorbed h b c).dout = s.dout := rfl
@[simp] theorem State.putAbsorbed_fcode (h : Accumulator) (b : List Byte) (c : BitVec 64) : (s.putAbsorbed h b c).fcode = s.fcode := rfl
@[simp] theorem State.putAbsorbed_input (h : Accumulator) (b : List Byte) (c : BitVec 64) : (s.putAbsorbed h b c).input = s.input := rfl
@[simp] theorem State.putAbsorbed_responses (h : Accumulator) (b : List Byte) (c : BitVec 64) : (s.putAbsorbed h b c).responses = s.responses := rfl

/-! ### putDigest -/

@[simp] theorem State.putDigest_st (h : Accumulator) (d : List Byte) : (s.putDigest h d).st = .finalized := rfl
@[simp] theorem State.putDigest_var (h : Accumulator) (d : List Byte) : (s.putDigest h d).var = s.var := rfl
@[simp] theorem State.putDigest_H (h : Accumulator) (d : List Byte) : (s.putDigest h d).H = some h := rfl
@[simp] theorem State.putDigest_buf (h : Accumulator) (d : List Byte) : (s.putDigest h d).buf = some [] := rfl
@[simp] theorem State.putDigest_cnt (h : Accumulator) (d : List Byte) : (s.putDigest h d).cnt = s.cnt := rfl
@[simp] theorem State.putDigest_dout (h : Accumulator) (d : List Byte) : (s.putDigest h d).dout = some d := rfl
@[simp] theorem State.putDigest_fcode (h : Accumulator) (d : List Byte) : (s.putDigest h d).fcode = s.fcode := rfl
@[simp] theorem State.putDigest_input (h : Accumulator) (d : List Byte) : (s.putDigest h d).input = s.input := rfl
@[simp] theorem State.putDigest_responses (h : Accumulator) (d : List Byte) : (s.putDigest h d).responses = s.responses := rfl

/-! ### withInput -/

@[simp] theorem State.withInput_st (l : List HostEvent) : (s.withInput l).st = s.st := rfl
@[simp] theorem State.withInput_var (l : List HostEvent) : (s.withInput l).var = s.var := rfl
@[simp] theorem State.withInput_H (l : List HostEvent) : (s.withInput l).H = s.H := rfl
@[simp] theorem State.withInput_buf (l : List HostEvent) : (s.withInput l).buf = s.buf := rfl
@[simp] theorem State.withInput_cnt (l : List HostEvent) : (s.withInput l).cnt = s.cnt := rfl
@[simp] theorem State.withInput_dout (l : List HostEvent) : (s.withInput l).dout = s.dout := rfl
@[simp] theorem State.withInput_fcode (l : List HostEvent) : (s.withInput l).fcode = s.fcode := rfl
@[simp] theorem State.withInput_input (l : List HostEvent) : (s.withInput l).input = l := rfl
@[simp] theorem State.withInput_responses (l : List HostEvent) : (s.withInput l).responses = s.responses := rfl

/-! ### resetContext -/

@[simp] theorem State.resetContext_st : (s.resetContext).st = .idle := rfl
@[simp] theorem State.resetContext_var : (s.resetContext).var = none := rfl
@[simp] theorem State.resetContext_H : (s.resetContext).H = none := rfl
@[simp] theorem State.resetContext_buf : (s.resetContext).buf = none := rfl
@[simp] theorem State.resetContext_cnt : (s.resetContext).cnt = none := rfl
@[simp] theorem State.resetContext_dout : (s.resetContext).dout = none := rfl
@[simp] theorem State.resetContext_fcode : (s.resetContext).fcode = .noFault := rfl
@[simp] theorem State.resetContext_input : (s.resetContext).input = s.input := rfl
@[simp] theorem State.resetContext_responses : (s.resetContext).responses = s.responses := rfl

/-! ### enterFault -/

@[simp] theorem State.enterFault_st (c : FaultCode) : (s.enterFault c).st = .faulted := by
  unfold State.enterFault; split <;> simp_all

theorem State.enterFault_fcode (c : FaultCode) : (s.enterFault c).fcode = if s.st = .faulted then s.fcode else c := rfl

@[simp] theorem State.enterFault_var (c : FaultCode) : (s.enterFault c).var = s.var := rfl
@[simp] theorem State.enterFault_H (c : FaultCode) : (s.enterFault c).H = s.H := rfl
@[simp] theorem State.enterFault_buf (c : FaultCode) : (s.enterFault c).buf = s.buf := rfl
@[simp] theorem State.enterFault_cnt (c : FaultCode) : (s.enterFault c).cnt = s.cnt := rfl
@[simp] theorem State.enterFault_dout (c : FaultCode) : (s.enterFault c).dout = s.dout := rfl
@[simp] theorem State.enterFault_input (c : FaultCode) : (s.enterFault c).input = s.input := rfl
@[simp] theorem State.enterFault_responses (c : FaultCode) : (s.enterFault c).responses = s.responses := rfl

/-- Outside Faulted, fault entry writes the state and the code. -/
theorem State.enterFault_of_ne (c : FaultCode) (h : s.st ≠ .faulted) :
    s.enterFault c = { s with st := .faulted, fcode := c } := by
  unfold State.enterFault; simp [h]

/-- In Faulted, fault entry changes nothing. -/
theorem State.enterFault_of_eq (c : FaultCode) (h : s.st = .faulted) : s.enterFault c = s := by
  cases s; simp_all [State.enterFault]

end Sys2Proof.Machine
end

