-- ==== Sys2Proof/Laws/Blocks.lean ====
section
/-! SUPPORT. Byte strings cut into blocks, and the byte loop ABSORB, one lemma per case. -/

namespace Sys2Proof.Machine

theorem blockBytes_pos (v : Variant) : 0 < blockBytes v := by cases v <;> decide

theorem slice_length (s : List Byte) (a b : Nat) : (slice s a b).length = min (b - a) (s.length - a) := by
  simp [slice]

theorem slice_append_left (s t : List Byte) (a b : Nat) (h : b ≤ s.length) : slice (s ++ t) a b = slice s a b := by
  unfold slice
  by_cases hab : a ≤ b
  · rw [List.drop_append_of_le_length (by omega), List.take_append_of_le_length (by simp; omega)]
  · simp [show b - a = 0 by omega]

@[simp] theorem zeros_length (n : Nat) : (zeros n).length = n := by simp [zeros]

@[simp] theorem toBE_length (n v : Nat) : (toBE n v).length = n := by simp [toBE]

theorem blocks_length (v : Variant) (m : List Byte) : (blocks v m).length = m.length / blockBytes v := by simp [blocks]

theorem tailBytes_length (v : Variant) (m : List Byte) : (tailBytes v m).length = m.length % blockBytes v := by
  simp [tailBytes, Nat.mod_eq_sub_div_mul]

theorem blocks_short {v : Variant} {m : List Byte} (h : m.length < blockBytes v) : blocks v m = [] := by
  simp [blocks, Nat.div_eq_of_lt h]

theorem tailBytes_short {v : Variant} {m : List Byte} (h : m.length < blockBytes v) : tailBytes v m = m := by
  simp [tailBytes, Nat.div_eq_of_lt h]

/-- A byte that does not complete a block joins the tail. -/
theorem blocks_snoc_of_ne {v : Variant} {m : List Byte} {b : Byte} (h : (tailBytes v m ++ [b]).length ≠ blockBytes v) :
    blocks v (m ++ [b]) = blocks v m ∧ tailBytes v (m ++ [b]) = tailBytes v m ++ [b] := by
  have hpos := blockBytes_pos v
  have hlt := Nat.mod_lt m.length hpos
  rw [List.length_append, tailBytes_length, List.length_singleton] at h
  have hdiv : (m.length + 1) / blockBytes v = m.length / blockBytes v := by
    have hm := Nat.div_add_mod' m.length (blockBytes v)
    refine Nat.div_eq_of_lt_le (by omega) ?_
    rw [Nat.add_mul]
    omega
  have hle : m.length / blockBytes v * blockBytes v ≤ m.length := Nat.div_mul_le_self _ _
  constructor
  · simp only [blocks, List.length_append, List.length_singleton, hdiv]
    refine List.map_congr_left fun j hj => slice_append_left _ _ _ _ ?_
    have : j + 1 ≤ m.length / blockBytes v := by simpa using hj
    exact (Nat.mul_le_mul_right _ this).trans hle
  · simp only [tailBytes, List.length_append, List.length_singleton, hdiv]
    rw [List.drop_append_of_le_length hle]

/-- The byte that completes a block makes the tail a block, and leaves no tail. -/
theorem blocks_snoc_of_eq {v : Variant} {m : List Byte} {b : Byte} (h : (tailBytes v m ++ [b]).length = blockBytes v) :
    blocks v (m ++ [b]) = blocks v m ++ [tailBytes v m ++ [b]] ∧ tailBytes v (m ++ [b]) = [] := by
  have hpos := blockBytes_pos v
  have hm := Nat.div_add_mod m.length (blockBytes v)
  rw [List.length_append, tailBytes_length, List.length_singleton] at h
  have hlen : m.length + 1 = (m.length / blockBytes v + 1) * blockBytes v := by
    rw [Nat.add_mul, Nat.mul_comm (m.length / blockBytes v)]; omega
  have hdiv : (m.length + 1) / blockBytes v = m.length / blockBytes v + 1 := by rw [hlen]; exact Nat.mul_div_cancel _ hpos
  have hle : m.length / blockBytes v * blockBytes v ≤ m.length := Nat.div_mul_le_self _ _
  constructor
  · simp only [blocks, List.length_append, List.length_singleton, hdiv, List.range_succ, List.map_append, List.map_cons,
      List.map_nil]
    congr 1
    · refine List.map_congr_left fun j hj => slice_append_left _ _ _ _ ?_
      have : j + 1 ≤ m.length / blockBytes v := by simpa using hj
      exact (Nat.mul_le_mul_right _ this).trans hle
    · simp only [slice, tailBytes]
      rw [List.drop_append_of_le_length hle, List.take_of_length_le]
      simp; omega
  · simp only [tailBytes, List.length_append, List.length_singleton, hdiv]
    rw [List.drop_eq_nil_iff]
    simp; omega

/-! ### ABSORB -/

@[simp] theorem absorb_nil (v : Variant) (h : Words8 v.w) (b : List Byte) : absorb v h b [] = (h, b) := by
  simp [absorb]

theorem absorb_cons_of_eq {v : Variant} {h : Words8 v.w} {b p : List Byte} {x : Byte}
    (e : (b ++ [x]).length = blockBytes v) : absorb v h b (x :: p) = absorb v (processBlock v h (b ++ [x])) [] p := by
  rw [absorb, if_pos e]

theorem absorb_cons_of_ne {v : Variant} {h : Words8 v.w} {b p : List Byte} {x : Byte}
    (e : (b ++ [x]).length ≠ blockBytes v) : absorb v h b (x :: p) = absorb v h (b ++ [x]) p := by
  rw [absorb, if_neg e]

/-- Absorbing two payloads one after the other is absorbing their concatenation. -/
theorem absorb_append (v : Variant) (h : Words8 v.w) (b p q : List Byte) :
    absorb v h b (p ++ q) = absorb v (absorb v h b p).1 (absorb v h b p).2 q := by
  induction p generalizing h b with
  | nil => simp
  | cons x p ih =>
    by_cases e : (b ++ [x]).length = blockBytes v
    · rw [List.cons_append, absorb_cons_of_eq e, absorb_cons_of_eq e, ih]
    · rw [List.cons_append, absorb_cons_of_ne e, absorb_cons_of_ne e, ih]

theorem processBlocks_append (v : Variant) (h : Words8 v.w) (x y : List (List Byte)) :
    processBlocks v h (x ++ y) = processBlocks v (processBlocks v h x) y := by simp [processBlocks]

end Sys2Proof.Machine
end

