-- ==== Sys2Proof/Laws/Bytes.lean ====
section
/-! SUPPORT. Big-endian conversion and the schedule, one step of each recursion. -/

namespace Sys2Proof.Machine

/-- The last byte of `BE_{n+1}(v)` is the lowest, and the bytes before it are `BE_n(v / 256)`. -/
theorem toBE_succ (n v : Nat) : toBE (n + 1) v = toBE n (v / 256) ++ [BitVec.ofNat 8 v] := by
  simp only [toBE, List.range_succ, List.map_append, List.map_cons, List.map_nil]
  congr 1
  · refine List.map_congr_left fun k hk => ?_
    have : k < n := by simpa using hk
    rw [Nat.shiftRight_eq_div_pow, Nat.shiftRight_eq_div_pow, show (256 : Nat) = 2 ^ 8 from rfl,
      Nat.div_div_eq_div_mul, ← pow_add]
    congr 3
    omega
  · simp

theorem fromBE_snoc (s : List Byte) (b : Byte) : fromBE (s ++ [b]) = fromBE s * 256 + b.toNat := by
  simp [fromBE]

theorem extendSchedule_succ (v : Variant) (n : Nat) (l : List (Word v)) :
    extendSchedule v (n + 1) l = nextScheduleWord v (extendSchedule v n l) :: extendSchedule v n l := by
  induction n generalizing l with
  | zero => rfl
  | succ n ih => rw [extendSchedule, ih]; rfl

theorem extendSchedule_length (v : Variant) (n : Nat) (l : List (Word v)) :
    (extendSchedule v n l).length = n + l.length := by
  induction n with
  | zero => simp [extendSchedule]
  | succ n ih => rw [extendSchedule_succ, List.length_cons, ih]; omega

end Sys2Proof.Machine
end

