-- ==== Sys2Proof/Laws/Decode.lean ====
section
/-! SUPPORT. The fields of a command word as numbers, and the decoder and encoder in those terms; proofs about decoding
cite these and never unfold the bit fields. -/

namespace Sys2Proof.Machine

theorem opField_toNat (cw : BitVec 32) : (opField cw).toNat = wordOp cw := by
  simp [opField, wordOp, BitVec.extractLsb'_toNat]

theorem variantField_toNat (cw : BitVec 32) : (variantField cw).toNat = wordV cw := by
  simp [variantField, wordV, BitVec.extractLsb'_toNat, Nat.shiftRight_eq_div_pow]

theorem reservedField_toNat (cw : BitVec 32) : (reservedField cw).toNat = wordRsvd cw := by
  simp [reservedField, wordRsvd, BitVec.extractLsb'_toNat, Nat.shiftRight_eq_div_pow]

theorem countField_toNat (cw : BitVec 32) : (countField cw).toNat = wordCount cw := by
  have := cw.isLt
  simp only [countField, wordCount, BitVec.extractLsb'_toNat, Nat.shiftRight_eq_div_pow]
  omega

theorem wordOk_iff_fields (cw : BitVec 32) :
    wordOk cw = true ↔
      (1 ≤ wordOp cw ∧ wordOp cw ≤ 5) ∧ wordRsvd cw = 0 ∧ (wordOp cw ≠ 1 → wordV cw = 0) ∧
        (wordOp cw ≠ 2 → wordCount cw = 0) :=
  decide_eq_true_iff

theorem wellFormedWord_iff (cw : BitVec 32) : wellFormedWord cw = true ↔ wordOk cw = true := by
  have := (variantField cw).isLt
  simp only [wellFormedWord, wordOk_iff_fields, Bool.and_eq_true, Bool.or_eq_true, beq_iff_eq, List.contains_eq_mem,
    List.mem_cons, List.mem_nil_iff, or_false, decide_eq_true_eq, ← BitVec.toNat_inj, opField_toNat,
    variantField_toNat, reservedField_toNat, countField_toNat]
  rw [variantField_toNat] at this
  simp
  omega

theorem variantOfBit_variantField (cw : BitVec 32) :
    variantOfBit (variantField cw) = if wordV cw = 0 then .sha256 else .sha512 := by
  simp [variantOfBit, ← variantField_toNat, ← BitVec.toNat_inj]

theorem expectedLength_eq (cw : BitVec 32) : expectedLength cw = expectedPayload cw := by
  simp only [expectedLength, expectedPayload, wellFormedWord_iff, countField_toNat, ← opField_toNat,
    ← BitVec.toNat_inj]
  rfl

theorem decodeWord_of_wordOk {cw : BitVec 32} (h : wordOk cw = true) :
    decodeWord cw =
      if wordOp cw = 1 then .init (if wordV cw = 0 then .sha256 else .sha512)
      else if wordOp cw = 2 then .update (countField cw)
      else if wordOp cw = 3 then .finalize
      else if wordOp cw = 4 then .readDigest
      else .status := by
  obtain ⟨⟨ha, hb⟩, -⟩ := (wordOk_iff_fields cw).1 h
  rw [decodeWord, if_pos ((wellFormedWord_iff cw).2 h), opField_toNat]
  obtain e | e | e | e | e : wordOp cw = 1 ∨ wordOp cw = 2 ∨ wordOp cw = 3 ∨ wordOp cw = 4 ∨ wordOp cw = 5 := by omega
  all_goals simp [e, variantOfBit_variantField]

theorem decodeWord_of_not_wordOk {cw : BitVec 32} (h : ¬ wordOk cw = true) : decodeWord cw = .illegal := by
  rw [decodeWord, if_neg (by rwa [wellFormedWord_iff])]

theorem packWord_toNat (c : BitVec 16) (v : BitVec 1) (o : BitVec 4) :
    (packWord c v o).toNat = 65536 * c.toNat + 16 * v.toNat + o.toNat := by
  have h1 := c.isLt
  have h2 := v.isLt
  have h3 := o.isLt
  change (((c ++ 0#11) ++ v) ++ o : BitVec (16 + 11 + 1 + 4)).toNat = _
  rw [BitVec.toNat_append, BitVec.toNat_append, BitVec.toNat_append, ← Nat.shiftLeft_add_eq_or_of_lt h3,
    ← Nat.shiftLeft_add_eq_or_of_lt h2, ← Nat.shiftLeft_add_eq_or_of_lt (by decide)]
  simp only [Nat.shiftLeft_eq]
  simp
  omega

end Sys2Proof.Machine
end

