-- ==== Sys2Proof/Laws/Ops.lean ====
section
/-! SUPPORT. What each shared operation of the commands can do, said once. -/

namespace Sys2Proof.Machine

/-! ### Responding and fault entry -/

theorem respond_eq (d : List Byte) (s : State) : respond d s = .next (s.withResponse d) := rfl

theorem respond_next {d : List Byte} {s u : State} (h : respond d s = .next u) : u = s.withResponse d := by
  simpa [respond] using h.symm

theorem raiseFault_eq (c : FaultCode) (s : State) : raiseFault c s = .next ((s.enterFault c).withResponse []) := rfl

theorem raiseFault_next {c : FaultCode} {s u : State} (h : raiseFault c s = .next u) :
    u = (s.enterFault c).withResponse [] := respond_next h

theorem ignoreCommand_eq (s : State) : ignoreCommand s = .next (s.withResponse []) := rfl

theorem absentValue_ne_next (f : ContextField) (u : State) : absentValue f ≠ .next u := by simp [absentValue]

/-- The status word reads `st`, `var`, `fcode` and the length of `buf`, nothing else (10_state.md R33-R37). -/
theorem statusWord_congr {s u : State} (hst : s.st = u.st) (hvar : s.var = u.var) (hf : s.fcode = u.fcode)
    (hb : s.buf.map List.length = u.buf.map List.length) : statusWord s = statusWord u := by
  have : bufferStatus s.buf = bufferStatus u.buf := by
    cases hs : s.buf <;> cases hu : u.buf <;> simp_all [bufferStatus]
  simp [statusWord, hst, hvar, hf, this]

@[simp] theorem statusWord_withResponse (s : State) (d : List Byte) : statusWord (s.withResponse d) = statusWord s := rfl

@[simp] theorem statusWord_withInput (s : State) (l : List HostEvent) : statusWord (s.withInput l) = statusWord s := rfl

/-! ### The accumulator at its width -/

@[simp] theorem accumulatorWords_accumulatorOf (v : Variant) (h : Words8 v.w) :
    accumulatorWords v (accumulatorOf v h) = some h := by cases v <;> rfl

theorem accumulatorWords_eq_some {v : Variant} {a : Accumulator} {h : Words8 v.w} (e : accumulatorWords v a = some h) :
    a = accumulatorOf v h := by
  cases v <;> cases a <;> simp_all [accumulatorWords, accumulatorOf]

/-! ### The computation in progress -/

/-- With all four values present the continuation runs on them. -/
theorem withComputation_eq {s : State} {v : Variant} {h : Words8 v.w} {b : List Byte} {c : BitVec 64}
    (hv : s.var = some v) (hh : s.H = some (accumulatorOf v h)) (hb : s.buf = some b) (hc : s.cnt = some c)
    (k : (v : Variant) → Words8 v.w → List Byte → BitVec 64 → Outcome) : withComputation s k = k v h b c := by
  simp [withComputation, hv, hh, hb, hc]

/-- A next state comes from a run of the continuation on the values the context holds. -/
theorem withComputation_next {s u : State} {k : (v : Variant) → Words8 v.w → List Byte → BitVec 64 → Outcome}
    (e : withComputation s k = .next u) :
    ∃ v h b c, s.var = some v ∧ s.H = some (accumulatorOf v h) ∧ s.buf = some b ∧ s.cnt = some c ∧
      k v h b c = .next u := by
  unfold withComputation at e
  cases hv : s.var with
  | none => simp [hv, absentValue] at e
  | some v =>
    cases hh : s.H.bind (accumulatorWords v) with
    | none => simp [hv, hh, absentValue] at e
    | some h =>
      cases hb : s.buf with
      | none => simp [hv, hh, hb, absentValue] at e
      | some b =>
        cases hc : s.cnt with
        | none => simp [hv, hh, hb, hc, absentValue] at e
        | some c =>
          obtain ⟨a, ha, he⟩ := Option.bind_eq_some_iff.1 hh
          refine ⟨v, h, b, c, rfl, ?_, rfl, rfl, ?_⟩
          · rw [ha, accumulatorWords_eq_some he]
          · simpa [hv, hh, hb, hc] using e

/-! ### One event -/

theorem execute_ok {t : Transaction} {i : Instr} (h : decode t = .ok i) (s : State) : execute t s = exec i s := by
  simp [execute, h]

theorem execute_illegal {t : Transaction} (h : decode t = .error .illegalCommand) (s : State) :
    execute t s = raiseFault .illegalCommand s := by simp [execute, h]

theorem execute_mismatch {t : Transaction} (h : decode t = .error .payloadMismatch) (s : State) :
    execute t s = raiseFault .payloadMismatch s := by simp [execute, h]

theorem step_nil {s : State} (h : s.input = []) : step s = .next s := by simp [step, receive, h]

theorem step_cons {s : State} {e : HostEvent} {rest : List HostEvent} (h : s.input = e :: rest) :
    step s = runEvent e (s.withInput rest) := by simp [step, receive, h]

theorem step_command {s : State} {t : Transaction} {rest : List HostEvent} (h : s.input = .command t :: rest) :
    step s = execute t (s.withInput rest) := step_cons h

end Sys2Proof.Machine
end

