-- ==== Sys2Proof/Laws/Exec.lean ====
section
/-! SUPPORT. Inversion of the commands and of the step: when one answers a next state, which cases hold. -/

namespace Sys2Proof.Machine

/-- Fault entry with its response: what a faulting command does to the state. -/
def State.faultedWith (s : State) (c : FaultCode) : State := (s.enterFault c).withResponse []

theorem execUpdate_next {p : List Byte} {s u : State} (e : execUpdate p s = .next u) :
    (s.st = .faulted ∧ u = s.withResponse []) ∨
    (s.st = .idle ∧ u = s.faultedWith .notInitialised) ∨
    (s.st = .finalized ∧ u = s.faultedWith .useAfterFinalize) ∨
    ((s.st = .fresh ∨ s.st = .accepting) ∧ ∃ v h b c,
      s.var = some v ∧ s.H = some (accumulatorOf v h) ∧ s.buf = some b ∧ s.cnt = some c ∧
      ((c.toNat + 8 * p.length > Config.counterMax ∧ u = s.faultedWith .lengthOverflow) ∨
       (c.toNat + 8 * p.length ≤ Config.counterMax ∧
        u = (s.putAbsorbed (accumulatorOf v (absorb v h b p).1) (absorb v h b p).2
              (c + BitVec.ofNat 64 (8 * p.length))).withResponse []))) := by
  have hopen : updateComputation p s = .next u → ∃ v h b c,
      s.var = some v ∧ s.H = some (accumulatorOf v h) ∧ s.buf = some b ∧ s.cnt = some c ∧
      ((c.toNat + 8 * p.length > Config.counterMax ∧ u = s.faultedWith .lengthOverflow) ∨
       (c.toNat + 8 * p.length ≤ Config.counterMax ∧
        u = (s.putAbsorbed (accumulatorOf v (absorb v h b p).1) (absorb v h b p).2
              (c + BitVec.ofNat 64 (8 * p.length))).withResponse [])) := by
    intro e
    obtain ⟨v, h, b, c, hv, hh, hb, hc, e⟩ := withComputation_next e
    refine ⟨v, h, b, c, hv, hh, hb, hc, ?_⟩
    split at e
    · exact .inl ⟨‹_›, raiseFault_next e⟩
    · exact .inr ⟨by omega, respond_next e⟩
  unfold execUpdate at e
  cases hst : s.st <;> simp only [hst] at e
  · exact .inr (.inl ⟨rfl, raiseFault_next e⟩)
  · exact .inr (.inr (.inr ⟨.inl rfl, hopen e⟩))
  · exact .inr (.inr (.inr ⟨.inr rfl, hopen e⟩))
  · exact .inr (.inr (.inl ⟨rfl, raiseFault_next e⟩))
  · exact .inl ⟨rfl, respond_next e⟩

theorem execFinalize_next {s u : State} (e : execFinalize s = .next u) :
    (s.st = .faulted ∧ u = s.withResponse []) ∨
    (s.st = .idle ∧ u = s.faultedWith .notInitialised) ∨
    (s.st = .finalized ∧ u = s.faultedWith .useAfterFinalize) ∨
    ((s.st = .fresh ∨ s.st = .accepting) ∧ ∃ v h b c,
      s.var = some v ∧ s.H = some (accumulatorOf v h) ∧ s.buf = some b ∧ s.cnt = some c ∧
      u = (s.putDigest (accumulatorOf v (processBlocks v h (pad v b c)))
            (serialize v (processBlocks v h (pad v b c)))).withResponse
            (serialize v (processBlocks v h (pad v b c)))) := by
  unfold execFinalize at e
  cases hst : s.st <;> simp only [hst] at e
  · exact .inr (.inl ⟨rfl, raiseFault_next e⟩)
  · obtain ⟨v, h, b, c, hv, hh, hb, hc, e⟩ := withComputation_next e
    exact .inr (.inr (.inr ⟨.inl rfl, v, h, b, c, hv, hh, hb, hc, respond_next e⟩))
  · obtain ⟨v, h, b, c, hv, hh, hb, hc, e⟩ := withComputation_next e
    exact .inr (.inr (.inr ⟨.inr rfl, v, h, b, c, hv, hh, hb, hc, respond_next e⟩))
  · exact .inr (.inr (.inl ⟨rfl, raiseFault_next e⟩))
  · exact .inl ⟨rfl, respond_next e⟩

theorem execReadDigest_next {s u : State} (e : execReadDigest s = .next u) :
    (s.st = .faulted ∧ u = s.withResponse []) ∨
    (s.st = .finalized ∧ ∃ d, s.dout = some d ∧ u = s.withResponse d) ∨
    ((s.st = .idle ∨ s.st = .fresh ∨ s.st = .accepting) ∧ u = s.faultedWith .digestUnavailable) := by
  unfold execReadDigest at e
  cases hst : s.st <;> simp only [hst] at e
  · exact .inr (.inr ⟨.inl rfl, raiseFault_next e⟩)
  · exact .inr (.inr ⟨.inr (.inl rfl), raiseFault_next e⟩)
  · exact .inr (.inr ⟨.inr (.inr rfl), raiseFault_next e⟩)
  · split at e
    · exact .inr (.inl ⟨rfl, _, ‹_›, respond_next e⟩)
    · exact absurd e (absentValue_ne_next _ _)
  · exact .inl ⟨rfl, respond_next e⟩

theorem execInit_next {v : Variant} {s u : State} (e : execInit v s = .next u) :
    u = (s.startComputation v).withResponse [] := respond_next e

theorem execStatus_next {s u : State} (e : execStatus s = .next u) : u = s.withResponse [] := respond_next e

/-- Every way a command can end with a next state. `i` is the command; each case names the command it comes from. -/
theorem exec_next {i : Instr} {s u : State} (e : exec i s = .next u) :
    (∃ v, i = .init v ∧ u = (s.startComputation v).withResponse []) ∨
    (∃ p v h b c, i = .update p ∧ (s.st = .fresh ∨ s.st = .accepting) ∧ s.var = some v ∧
      s.H = some (accumulatorOf v h) ∧ s.buf = some b ∧ s.cnt = some c ∧
      c.toNat + 8 * p.length ≤ Config.counterMax ∧
      u = (s.putAbsorbed (accumulatorOf v (absorb v h b p).1) (absorb v h b p).2
            (c + BitVec.ofNat 64 (8 * p.length))).withResponse []) ∨
    (∃ v h b c, i = .finalize ∧ (s.st = .fresh ∨ s.st = .accepting) ∧ s.var = some v ∧
      s.H = some (accumulatorOf v h) ∧ s.buf = some b ∧ s.cnt = some c ∧
      u = (s.putDigest (accumulatorOf v (processBlocks v h (pad v b c)))
            (serialize v (processBlocks v h (pad v b c)))).withResponse
            (serialize v (processBlocks v h (pad v b c)))) ∨
    (∃ d, i = .readDigest ∧ s.st = .finalized ∧ s.dout = some d ∧ u = s.withResponse d) ∨
    (i = .status ∧ u = s.withResponse []) ∨
    ((∀ v, i ≠ .init v) ∧ i ≠ .status ∧ s.st = .faulted ∧ u = s.withResponse []) ∨
    ((∀ v, i ≠ .init v) ∧ i ≠ .status ∧ s.st ≠ .faulted ∧ ∃ c, c ≠ .noFault ∧ u = s.faultedWith c) := by
  cases i with
  | init v => exact .inl ⟨v, rfl, execInit_next e⟩
  | update p =>
    rcases execUpdate_next e with ⟨h, rfl⟩ | ⟨h, rfl⟩ | ⟨h, rfl⟩ | ⟨hs, v, h, b, c, hv, hh, hb, hc, ⟨_, rfl⟩ | ⟨hl, rfl⟩⟩
    · simp [h]
    · simp only [h]; refine .inr (.inr (.inr (.inr (.inr (.inr ⟨?_, ?_, ?_, _, ?_, rfl⟩))))) <;> simp
    · simp only [h]; refine .inr (.inr (.inr (.inr (.inr (.inr ⟨?_, ?_, ?_, _, ?_, rfl⟩))))) <;> simp
    · refine .inr (.inr (.inr (.inr (.inr (.inr ⟨?_, ?_, ?_, _, ?_, rfl⟩))))) <;> rcases hs with hs | hs <;> simp [hs]
    · exact .inr (.inl ⟨p, v, h, b, c, rfl, hs, hv, hh, hb, hc, hl, rfl⟩)
  | finalize =>
    rcases execFinalize_next e with ⟨h, rfl⟩ | ⟨h, rfl⟩ | ⟨h, rfl⟩ | ⟨hs, v, h, b, c, hv, hh, hb, hc, rfl⟩
    · simp [h]
    · simp only [h]; refine .inr (.inr (.inr (.inr (.inr (.inr ⟨?_, ?_, ?_, _, ?_, rfl⟩))))) <;> simp
    · simp only [h]; refine .inr (.inr (.inr (.inr (.inr (.inr ⟨?_, ?_, ?_, _, ?_, rfl⟩))))) <;> simp
    · exact .inr (.inr (.inl ⟨v, h, b, c, rfl, hs, hv, hh, hb, hc, rfl⟩))
  | readDigest =>
    rcases execReadDigest_next e with ⟨h, rfl⟩ | ⟨h, d, hd, rfl⟩ | ⟨hs, rfl⟩
    · simp [h]
    · exact .inr (.inr (.inr (.inl ⟨d, rfl, h, hd, rfl⟩)))
    · refine .inr (.inr (.inr (.inr (.inr (.inr ⟨?_, ?_, ?_, _, ?_, rfl⟩))))) <;>
        rcases hs with hs | hs | hs <;> simp [hs]
  | status => exact .inr (.inr (.inr (.inr (.inl ⟨rfl, execStatus_next e⟩))))

/-- Every way a step can end with a next state. -/
theorem step_next {s u : State} (e : step s = .next u) :
    (s.input = [] ∧ u = s) ∨
    (∃ ev rest, s.input = ev :: rest ∧ (∀ t, ev ≠ .command t) ∧ u = (s.withInput rest).resetContext) ∨
    (∃ t rest i, s.input = .command t :: rest ∧ decode t = .ok i ∧ exec i (s.withInput rest) = .next u) ∨
    (∃ t rest, s.input = .command t :: rest ∧ decode t = .error .illegalCommand ∧
      u = (s.withInput rest).faultedWith .illegalCommand) ∨
    (∃ t rest, s.input = .command t :: rest ∧ decode t = .error .payloadMismatch ∧
      u = (s.withInput rest).faultedWith .payloadMismatch) := by
  cases hi : s.input with
  | nil => rw [step_nil hi] at e; exact .inl ⟨rfl, by simpa using e.symm⟩
  | cons ev rest =>
    rw [step_cons hi] at e
    cases ev with
    | command t =>
      change execute t _ = _ at e
      cases hd : decode t with
      | ok i => exact .inr (.inr (.inl ⟨t, rest, i, rfl, hd, by rwa [execute_ok hd] at e⟩))
      | error er =>
        cases er with
        | illegalCommand =>
          rw [execute_illegal hd] at e
          exact .inr (.inr (.inr (.inl ⟨t, rest, rfl, hd, raiseFault_next e⟩)))
        | payloadMismatch =>
          rw [execute_mismatch hd] at e
          exact .inr (.inr (.inr (.inr ⟨t, rest, rfl, hd, raiseFault_next e⟩)))
    | reset => exact .inr (.inl ⟨_, rest, rfl, by simp, by simpa [runEvent] using e.symm⟩)
    | resetDuring t => exact .inr (.inl ⟨_, rest, rfl, by simp, by simpa [runEvent] using e.symm⟩)

end Sys2Proof.Machine
end

