-- ==== Sys2Proof/Laws/PerInstr.lean ====
section
/-! SUPPORT. Per-instruction families: `Encodes`, that a well-formed command's word is well-formed and expects the
payload it carries (30_encoding.md R73, R80). -/

open Sys2Proof.Machine

namespace Sys2Proof.Laws.Encodes

def Statement (i : Instr) : Prop :=
  i.wellFormed = true → wordOk (encode i).word = true ∧ expectedPayload (encode i).word = (encode i).payload.length

theorem init (v : Variant) : Statement (.init v) := by cases v <;> exact fun _ => by decide

theorem update (payload : List Byte) : Statement (.update payload) := by
  intro h
  have hl : payload.length ≤ 65535 := of_decide_eq_true h
  have hw : (encode (.update payload)).word.toNat = 65536 * payload.length + 2 := by
    simp [encode, packWord_toNat]
    omega
  have ho : wordOk (encode (.update payload)).word = true := by
    simp only [wordOk_iff_fields, wordOp, wordV, wordRsvd, wordCount, hw]
    omega
  refine ⟨ho, ?_⟩
  rw [expectedPayload, if_pos ⟨ho, by simp only [wordOp, hw]; omega⟩, wordCount, hw]
  change _ = payload.length
  omega

theorem finalize : Statement .finalize := fun _ => by decide

theorem readDigest : Statement .readDigest := fun _ => by decide

theorem status : Statement .status := fun _ => by decide

end Sys2Proof.Laws.Encodes
end

