-- ==== Sys2Proof/Laws/Status.lean ====
section
/-! SUPPORT. The status word as a number. -/

namespace Sys2Proof.Machine

theorem packStatus_toNat (a : BitVec 3) (b : BitVec 1) (c : BitVec 4) (d : BitVec 7) :
    (packStatus a b c d).toNat = a.toNat + 8 * b.toNat + 16 * c.toNat + 256 * d.toNat := by
  have h1 := a.isLt
  have h2 := b.isLt
  have h3 := c.isLt
  have h4 := d.isLt
  change ((((0#17 ++ d) ++ c) ++ b) ++ a : BitVec (17 + 7 + 4 + 1 + 3)).toNat = _
  rw [BitVec.toNat_append, BitVec.toNat_append, BitVec.toNat_append, BitVec.toNat_append,
    ← Nat.shiftLeft_add_eq_or_of_lt h1, ← Nat.shiftLeft_add_eq_or_of_lt h2, ← Nat.shiftLeft_add_eq_or_of_lt h3,
    ← Nat.shiftLeft_add_eq_or_of_lt h4]
  simp only [Nat.shiftLeft_eq]
  simp
  omega

theorem statusWord_toNat (s : State) :
    (statusWord s).toNat =
      (stateCode s.st).toNat + 8 * (variantStatus s.var).toNat + 16 * (faultCodeBits s.fcode).toNat +
        256 * (bufferStatus s.buf).toNat := packStatus_toNat _ _ _ _

theorem variantStatus_some (v : Variant) : (variantStatus (some v)).toNat = variantNumber v := by cases v <;> rfl

end Sys2Proof.Machine
end

