-- ==== Sys2Proof/Tests/Slice0.lean ====
section
/-! SUPPORT. Tests: the form checks, the decoder on words written out from 30_encoding.md, one step of each command,
and for every statement with hypotheses a witness that meets them. Expected values are those of spec/95_test_vectors.md,
or worked out by hand from the rule a docstring cites. -/

namespace Sys2Proof.Tests

open Sys2Proof.Machine

/-! ### States and messages -/

/-- The context of a computation of `v` over `m`, in state `st`. -/
def computing (st : CoreState) (v : Variant) (m : List Byte) : State :=
  { State.reset with
    st := st, var := some v, H := some (accumulatorOf v (messageAccumulator v m)), buf := some (tailBytes v m)
    cnt := some (BitVec.ofNat 64 (8 * m.length)) }

/-- The context of the finished computation of `v` over `m`. -/
def finished (v : Variant) (m : List Byte) : State :=
  { State.reset with
    st := .finalized, var := some v, H := some (accumulatorOf v (finalAccumulator v m)), buf := some []
    cnt := some (BitVec.ofNat 64 (8 * m.length)), dout := some (messageDigest v m) }

/-- Reset, then a fault of code `c`. -/
def faulted (c : FaultCode) : State := { State.reset with st := .faulted, fcode := c }

/-- `s` with one transaction to receive. -/
def sent (s : State) (cw : BitVec 32) (p : List Byte) : State := { s with input := [.command ⟨cw, p⟩] }

/-- `a^n` of 95_test_vectors.md section 2.6. -/
def a (n : Nat) : List Byte := List.replicate n 0x61#8

theorem a_length (n : Nat) : (a n).length = n := List.length_replicate

/-- `"hello"`. -/
def hello : List Byte := [0x68, 0x65, 0x6c, 0x6c, 0x6f]

/-- The longest message, 2^61 - 1 bytes: 8 times its length is 2^64 - 8. -/
@[irreducible] def longest : List Byte := List.replicate (2 ^ 61 - 1) 0#8

theorem longest_length : longest.length = 2305843009213693951 := by
  rw [longest, List.length_replicate]; rfl

/-- The digest bytes of a hexadecimal literal. -/
def digestOf (cs : String) : List Byte := (hexPairs cs.toList).getD []

/-- The data of the last response. -/
def lastData : Outcome → Option (List Byte)
  | .next s => s.responses.getLast?.map (·.data)
  | _ => none

/-- The status word of the last response. -/
def lastStatus : Outcome → Option (BitVec 32)
  | .next s => s.responses.getLast?.map (·.sw)
  | _ => none

/-- The state a step leads to, if it leads to one. -/
def after : Outcome → Option State
  | .next s => some s
  | _ => none

theorem computing_fits {st : CoreState} {v : Variant} {m : List Byte} (h : 8 * m.length ≤ 2 ^ 64 - 1) :
    Computing v m (computing st v m) := ⟨rfl, rfl, rfl, rfl, h, rfl⟩

theorem accepting_inv (v : Variant) (m : List Byte) (h : 8 * m.length ≤ 2 ^ 64 - 1) :
    Inv (computing .accepting v m) := .inl ⟨by simp [computing], rfl, v, m, computing_fits h⟩

theorem fresh_inv (v : Variant) : Inv (computing .fresh v []) :=
  .inl ⟨by simp [computing], rfl, v, computing_fits (by simp)⟩

theorem finished_inv (v : Variant) (m : List Byte) (h : 8 * m.length ≤ 2 ^ 64 - 1) : Inv (finished v m) :=
  .inl ⟨by simp [finished], rfl, v, m, rfl, rfl, rfl, rfl, h, rfl⟩

/-! ### WellFormed smoke: the one check, on a term it refuses and on the largest it accepts -/

/-- 30_encoding.md R81: a payload of 65536 bytes has no encoding. -/
theorem test_wellFormed_refuses_65536 : (Instr.update (a 65536)).wellFormed = false := by
  simp only [Instr.wellFormed, a_length, Config.maxCount]; decide

theorem test_wellFormed_accepts_65535 : (Instr.update (a 65535)).wellFormed = true := by
  simp only [Instr.wellFormed, a_length, Config.maxCount]; decide

/-! ### Decoding: words written out from the fields of 30_encoding.md R71 and the examples of R82 -/

theorem test_decode_init_sha256 : decode ⟨0b0000000000000000_00000000000_0_0001#32, []⟩ = .ok (.init .sha256) := by decide

theorem test_decode_init_sha512 : decode ⟨0b0000000000000000_00000000000_1_0001#32, []⟩ = .ok (.init .sha512) := by decide

theorem test_decode_update_hello :
    decode ⟨0b0000000000000101_00000000000_0_0010#32, hello⟩ = .ok (.update hello) := by decide

theorem test_decode_update_largest_count : decodeWord 0xffff0002 = .update 65535 := by decide

theorem test_decode_finalize : decode ⟨0b0000000000000000_00000000000_0_0011#32, []⟩ = .ok .finalize := by decide

theorem test_decode_read_digest : decode ⟨0b0000000000000000_00000000000_0_0100#32, []⟩ = .ok .readDigest := by decide

theorem test_decode_status : decode ⟨0b0000000000000000_00000000000_0_0101#32, []⟩ = .ok .status := by decide

/-- 30_encoding.md R78: reserved OP, RSVD, V and COUNT, one word each. -/
theorem test_decode_reserved :
    decodeWord 0x00000000 = .illegal ∧ decodeWord 0x00000006 = .illegal ∧ decodeWord 0x0000000f = .illegal ∧
      decodeWord 0x00000025 = .illegal ∧ decodeWord 0x00008001 = .illegal ∧ decodeWord 0x00000012 = .illegal ∧
      decodeWord 0x00010003 = .illegal := by decide

/-- 60_exceptions.md R307: an ill-formed word with a payload of the wrong length is ILLEGAL_COMMAND. -/
theorem test_decode_word_before_length :
    decode ⟨0x00000006, [1]⟩ = .error .illegalCommand ∧ decode ⟨0x00000001, [1]⟩ = .error .payloadMismatch := by decide

/-- The host's interface: the word and payload of `UPDATE "hello"` in table numbering, and the step that runs it. -/
theorem test_table_word_update :
    decodeTableWord 72 0x6f6c6c656800050002 = some (.update hello) ∧
      lastStatus (step (State.reset.withFetchWord 72 0x6f6c6c656800050002)) = some 0x00000024 := by decide

/-! ### One step of each command -/

/-- 44_commands.md R201 and the status words of 95_test_vectors.md program P1. -/
theorem test_init : lastStatus (step (sent State.reset 0x1 [])) = some 0x00000001 ∧
    lastStatus (step (sent (faulted .illegalCommand) 0x11 [])) = some 0x00000009 := by decide

/-- 95_test_vectors.md program P1: five pending bytes. -/
theorem test_update_hello : lastStatus (step (sent (computing .fresh .sha256 []) 0x00050002 hello)) = some 0x00000502 := by
  decide

/-- 44_commands.md R202: a counter of 2^64 - 8 takes no further byte; the code is 4. -/
theorem test_update_overflow :
    lastStatus (exec (.update [0]) { computing .accepting .sha256 [] with cnt := some 0xfffffffffffffff8 }) =
      some 0x00000044 := by decide

/-- 95_test_vectors.md S2. -/
theorem test_finalize_sha256_hello :
    lastData (exec .finalize (computing .accepting .sha256 hello)) =
      some (digestOf "2cf24dba5fb0a30e26e83b2ac5b9e29e1b161e5c1fa7425e73043362938b9824") := by decide +kernel

/-- 95_test_vectors.md section 2.6, the empty message, in Fresh. -/
theorem test_finalize_sha512_empty :
    lastData (exec .finalize (computing .fresh .sha512 [])) =
      some (digestOf ("cf83e1357eefb8bdf1542850d66d8007d620e4050b5715dc83f4a921d36ce9ce" ++
        "47d0d13c5d85f2b0ff8318d2877eec2f63b931bd47417a81a538327af927da3e")) := by decide +kernel

/-- 44_commands.md R206: the bytes of `dout` again. -/
theorem test_read_digest : lastData (exec .readDigest { finished .sha256 [] with dout := some hello }) = some hello := by
  decide

/-- 44_commands.md R206: code 5 in Fresh. -/
theorem test_read_digest_in_fresh : lastStatus (exec .readDigest (computing .fresh .sha256 [])) = some 0x00000054 := by
  decide

/-- 10_state.md R33: STATE 4, FAULT 2, nothing else. -/
theorem test_status : lastStatus (exec .status (faulted .notInitialised)) = some 0x00000024 := by decide

/-- 00_scope.md R17: the model stops rather than pick an absent value. -/
theorem test_absent_value_stops :
    exec .readDigest { State.reset with st := .finalized } = .fault (.absentRead .dout) := rfl

/-! ### The datapath: vectors of 95_test_vectors.md sections 2.1 to 2.4 -/

theorem test_helpers :
    rotr 8 0x12345678#32 = 0x78123456 ∧ rotr 8 0x0123456789abcdef#64 = 0xef0123456789abcd ∧
      shr 10 0x00000400#32 = 1 ∧ ch 0xff00ff00#32 0x12345678 0x9abcdef0 = 0x12bc56f0 ∧
      maj 0xff00ff00#32 0x0f0f0f0f 0xf0f0f0f0 = 0xff00ff00 := by decide

theorem test_mixes :
    bigSigma0 .sha256 (1 : BitVec 32) = 0x40080400#32 ∧ bigSigma1 .sha256 (1 : BitVec 32) = 0x04200080#32 ∧
      smallSigma0 .sha256 (1 : BitVec 32) = 0x02004000#32 ∧ smallSigma1 .sha256 (1 : BitVec 32) = 0x0000a000#32 ∧
      bigSigma0 .sha512 (1 : BitVec 64) = 0x0000001042000000#64 ∧
      bigSigma1 .sha512 (1 : BitVec 64) = 0x0004400000800000#64 ∧
      smallSigma0 .sha512 (1 : BitVec 64) = 0x8100000000000000#64 ∧
      smallSigma1 .sha512 (1 : BitVec 64) = 0x0000200000000008#64 := by decide

/-- Section 2.2, the schedule of the padded `"abc"` block. -/
theorem test_schedule :
    (expand .sha256 (decodeBlock .sha256 ([0x61, 0x62, 0x63, 0x80] ++ zeros 59 ++ [0x18]))).getD 18 0 = 0x7da86405#32 ∧
      (expand .sha256 (decodeBlock .sha256 ([0x61, 0x62, 0x63, 0x80] ++ zeros 59 ++ [0x18]))).getD 63 0 =
        0x12b1edeb#32 := by decide +kernel

/-- Section 2.3, the corner case `COMPRESS_256(H = 0, W = 0)`. -/
theorem test_compress_zero :
    compress .sha256 ⟨0, 0, 0, 0, 0, 0, 0, 0⟩ (List.replicate 64 0) =
      ⟨0x7ca51614, 0x425c3ba8, 0xce54dd2f, 0xc2020ae7, 0xb6e574d1, 0x98136d0f, 0xae7e26cc, 0xbf0be7a6⟩ := by
  decide +kernel

/-- Section 2.4: 55 bytes fit one SHA-256 block, 56 do not. -/
theorem test_padding :
    (pad .sha256 (a 55) 0x1b8).flatten.drop 44 =
        a 11 ++ [0x80, 0, 0, 0, 0, 0, 0, 0x01, 0xb8] ∧
      (pad .sha256 (a 56) 0x1c0).length = 2 ∧
      (pad .sha512 (a 112) 0x380).flatten.drop 236 = zeros 18 ++ [0x03, 0x80] := by decide +kernel

/-! ### Witnesses: for each statement with hypotheses, a concrete input that meets them -/

/-- Each condition of 30_encoding.md R73 missed alone, outside Faulted and in it. -/
theorem witness_IllFormedWordRaisesIllegalCommand :
    (sent State.reset 0x6 []).input = .command ⟨0x6, []⟩ :: [] ∧ wordOk 0x0 = false ∧ wordOk 0x6 = false ∧
      wordOk 0x21 = false ∧ wordOk 0x12 = false ∧ wordOk 0x10003 = false ∧ (sent State.reset 0x6 []).st ≠ .faulted ∧
      (sent (faulted .lengthOverflow) 0x6 []).st = .faulted := by decide

theorem witness_WrongLengthRaisesPayloadMismatch :
    wordOk 0xffff0002 = true ∧ wordOp 0xffff0002 = 2 ∧ wordCount 0xffff0002 = 65535 ∧
      ¬ (wordOk 0x5 = true ∧ wordOp 0x5 = 2) ∧
      (sent State.reset 0x20002 [1]).input = .command ⟨0x20002, [1]⟩ :: [] ∧ wordOk 0x20002 = true ∧
      [1#8].length ≠ expectedPayload 0x20002 ∧ [1#8].length ≠ expectedPayload 0x5 ∧
      (sent State.reset 0x20002 [1]).st ≠ .faulted ∧ (sent (faulted .lengthOverflow) 0x20002 [1]).st = .faulted := by
  decide

theorem witness_DecodeOfEncodeIsTheCommand :
    (Instr.update (a 65535)).wellFormed = true ∧ (Instr.update []).wellFormed = true ∧
      (Instr.init .sha512).wellFormed = true :=
  ⟨test_wellFormed_accepts_65535, rfl, rfl⟩

theorem witness_EncodeOfDecodeIsTheTransaction : decode ⟨0x00050002, hello⟩ = .ok (.update hello) := by decide

theorem witness_StepRunsTheDecodedCommand :
    (sent State.reset 0x5 []).input = .command ⟨0x5, []⟩ :: [] ∧ decode ⟨0x5, []⟩ = .ok .status := by decide

theorem witness_StepFollowsExecutePseudocode : (sent State.reset 0x5 []).input = .command ⟨0x5, []⟩ :: [] := rfl

theorem witness_StepTakesOneEventInOrder :
    (∃ u, step State.reset = .next u) ∧ State.reset.input = [] ∧ ∃ u, step (sent State.reset 0x1 []) = .next u :=
  ⟨⟨_, rfl⟩, rfl, _, rfl⟩

/-- The kinds of state, the largest payload, a full buffer but for one byte, and both sides of the counter's boundary. -/
theorem witness_UpdateAbsorbsThePayloadOrFaults :
    (a 65535).length ≤ 65535 ∧ (faulted .illegalCommand).st = .faulted ∧ State.reset.st = .idle ∧ (finished .sha256 []).st = .finalized ∧ Open (computing .fresh .sha256 []) ∧
      (computing .fresh .sha256 []).fcode = .noFault ∧ (computing .fresh .sha256 []).var = some .sha256 ∧
      (computing .fresh .sha256 []).H = some (accumulatorOf .sha256 (messageAccumulator .sha256 [])) ∧
      (computing .fresh .sha256 []).buf = some [] ∧ (computing .fresh .sha256 []).cnt = some 0 ∧
      (a 63).length < blockBytes .sha256 ∧ (a 127).length < blockBytes .sha512 ∧
      (0xfffffffffffffff8 : BitVec 64).toNat + 8 * (a 1).length > 2 ^ 64 - 1 ∧
      (0xfffffffffffffff0 : BitVec 64).toNat + 8 * (a 1).length ≤ 2 ^ 64 - 1 :=
  ⟨by rw [a_length], rfl, rfl, rfl, .inl rfl, rfl, rfl, rfl, rfl, rfl, by decide, by decide, by decide, by decide⟩

/-- The largest counter a computation reaches, in an accepting context. -/
theorem witness_UpdateAbsorbsThePayloadOrFaults_at_the_boundary :
    Open (computing .accepting .sha512 longest) ∧ (computing .accepting .sha512 longest).fcode = .noFault ∧
      (computing .accepting .sha512 longest).cnt = some 0xfffffffffffffff8 ∧
      (tailBytes .sha512 longest).length < blockBytes .sha512 :=
  ⟨.inr rfl, rfl, by simp [computing, longest_length], by
    simp only [tailBytes, List.length_drop, longest_length]; decide⟩

theorem witness_AbsorbCompressesEachCompleteBlock :
    (a 63).length < blockBytes .sha256 ∧ (a 127).length < blockBytes .sha512 ∧ ([] : List Byte).length < blockBytes .sha256 := by
  decide

theorem witness_FinalizeProducesTheDigestOrFaults :
    (faulted .illegalCommand).st = .faulted ∧ State.reset.st = .idle ∧ (finished .sha512 []).st = .finalized ∧ Open (computing .accepting .sha512 (a 127)) ∧
      (computing .accepting .sha512 (a 127)).fcode = .noFault ∧
      (computing .accepting .sha512 (a 127)).var = some .sha512 ∧
      (computing .accepting .sha512 (a 127)).H = some (accumulatorOf .sha512 (messageAccumulator .sha512 (a 127))) ∧
      (computing .accepting .sha512 (a 127)).buf = some (a 127) ∧ (a 127).length < blockBytes .sha512 ∧
      (computing .accepting .sha512 (a 127)).cnt = some 0x3f8 :=
  ⟨rfl, rfl, rfl, .inr rfl, rfl, rfl, rfl, by decide +kernel, by rw [a_length]; decide,
    by decide +kernel⟩

theorem witness_ReadDigestReturnsTheDigestOrFaults :
    (finished .sha256 []).st = .finalized ∧ (finished .sha256 []).dout = some (messageDigest .sha256 []) ∧
      State.reset.st = .idle ∧ (computing .fresh .sha256 []).st = .fresh ∧
      (computing .accepting .sha256 []).st = .accepting ∧ (faulted .illegalCommand).st = .faulted :=
  ⟨rfl, rfl, rfl, rfl, rfl, rfl⟩

/-- Each command with a next state; STATUS, FINALIZE and UPDATE meet the premises of the frame's clauses. -/
theorem witness_CommandsChangeOnlyTheirOwnState :
    (∃ u, exec (.init .sha256) State.reset = .next u) ∧
      (∃ u, exec (.update hello) (computing .fresh .sha256 []) = .next u ∧ u.st ≠ .faulted) ∧
      (∃ u, exec .finalize (computing .fresh .sha256 []) = .next u ∧ u.st ≠ .faulted) ∧
      (∃ u, exec .readDigest (faulted .notInitialised) = .next u) ∧ (faulted .notInitialised).st = .faulted ∧
      ∃ u, exec .status State.reset = .next u :=
  ⟨⟨_, rfl⟩, ⟨_, rfl, by simp⟩, ⟨_, rfl, by simp⟩, ⟨_, rfl⟩, rfl, _, rfl⟩

theorem witness_FaultEntryKeepsTheFirstFault : State.reset.st ≠ .faulted ∧ (faulted .illegalCommand).st = .faulted := by
  decide

theorem witness_FaultingCommandWritesOnlyStateAndCode :
    (sent State.reset 0x4 []).st ≠ .faulted ∧ ∃ u, step (sent State.reset 0x4 []) = .next u ∧ u.st = .faulted :=
  ⟨by decide, _, rfl, rfl⟩

/-- In Faulted: an INIT, a STATUS, an INIT with a payload, an UPDATE and an ill-formed word. -/
theorem witness_FaultedIgnoresAllButInitAndStatus :
    (sent (faulted .illegalCommand) 0x11 []).input = .command ⟨0x11, []⟩ :: [] ∧
      (sent (faulted .illegalCommand) 0x11 []).st = .faulted ∧ (wordOk 0x11 = true ∧ wordOp 0x11 = 1) ∧
      (wordOk 0x5 = true ∧ wordOp 0x5 = 5) ∧ ¬ RunsInFaulted ⟨0x11, [0]⟩ ∧ ¬ RunsInFaulted ⟨0x2, []⟩ ∧
      ¬ RunsInFaulted ⟨0x1005, []⟩ := by
  unfold RunsInFaulted
  decide

theorem reset_inv : Inv State.reset := .inl ⟨by decide, rfl, rfl, rfl, rfl, rfl, rfl⟩

/-- Every code of 60_exceptions.md R301 is raised in a context with the invariant, and no fault in one too. -/
theorem witness_FirstFaultInPriorityIsReported :
    (Inv (sent State.reset 0x0 [1]) ∧ raisedFault (sent State.reset 0x0 [1]) ⟨0x0, [1]⟩ = some .illegalCommand) ∧
      raisedFault (sent State.reset 0x2 [1]) ⟨0x2, [1]⟩ = some .payloadMismatch ∧
      raisedFault (sent State.reset 0x2 []) ⟨0x2, []⟩ = some .notInitialised ∧
      raisedFault (sent State.reset 0x4 []) ⟨0x4, []⟩ = some .digestUnavailable ∧
      raisedFault (sent State.reset 0x5 []) ⟨0x5, []⟩ = none ∧
      (Inv (finished .sha256 []) ∧ raisedFault (finished .sha256 []) ⟨0x3, []⟩ = some .useAfterFinalize) ∧
      (Inv (computing .accepting .sha256 longest) ∧ (computing .accepting .sha256 longest).st ≠ .faulted ∧
        raisedFault (computing .accepting .sha256 longest) ⟨0x10002, [1]⟩ = some .lengthOverflow) ∧
      Inv (faulted .illegalCommand) ∧ ¬ RunsInFaulted ⟨0x3, []⟩ := by
  refine ⟨⟨reset_inv, by decide⟩, by decide, by decide, by decide, by decide,
    ⟨finished_inv _ _ (by simp), ?_⟩, ⟨accepting_inv _ _ (by rw [longest_length]; decide), by simp [computing], ?_⟩,
    .inr ⟨rfl, by decide, .idle, rfl, rfl, rfl, rfl, rfl⟩, by unfold RunsInFaulted; decide⟩
  · have h : (finished .sha256 []).st = .finalized := rfl
    simp only [raisedFault, h]
    decide
  · have hs : (computing .accepting .sha256 longest).st = .accepting := rfl
    have hc : (computing .accepting .sha256 longest).cnt = some 0xfffffffffffffff8 := by
      simp [computing, longest_length]
    simp only [raisedFault, hs, hc]
    decide

/-- From Faulted: stay, leave by INIT, leave by reset. -/
theorem witness_FaultedIsLeftOnlyByInitOrReset :
    (∃ u, step (sent (faulted .illegalCommand) 0x5 []) = .next u ∧ u.st = .faulted) ∧
      (∃ u, step (sent (faulted .illegalCommand) 0x1 []) = .next u ∧ u.st = .fresh) ∧
      ∃ u, step { faulted .illegalCommand with input := [.reset] } = .next u ∧ u.st = .idle :=
  ⟨⟨_, rfl, rfl⟩, ⟨_, rfl, rfl⟩, _, rfl, rfl⟩

theorem witness_ResetGivesIdle :
    ({ faulted .illegalCommand with input := [.reset] } : State).input = .reset :: [] ∧
      (∀ t, HostEvent.reset ≠ .command t) ∧ (∀ t, HostEvent.resetDuring ⟨0x3, []⟩ ≠ .command t) ∧
      ∃ u, step { faulted .illegalCommand with input := [.resetDuring ⟨0x3, []⟩] } = .next u ∧ u.st = .idle ∧
        ({ faulted .illegalCommand with input := [.resetDuring ⟨0x3, []⟩] } : State).st ≠ .idle :=
  ⟨rfl, by simp, by simp, _, rfl, rfl, by simp [faulted]⟩

theorem witness_StateTransitionsAreThoseOfTheTable :
    (∃ u, step State.reset = .next u) ∧ (∃ u, step (sent State.reset 0x1 []) = .next u ∧ u.st = .fresh) ∧
      (∃ u, step (sent (computing .fresh .sha256 []) 0x2 []) = .next u ∧ u.st = .accepting) ∧
      (∃ u, step (sent (computing .fresh .sha256 []) 0x3 []) = .next u ∧ u.st = .finalized) ∧
      (∃ u, step (sent (finished .sha256 []) 0x4 []) = .next u ∧ u.st = .finalized) ∧
      (∃ u, step (sent State.reset 0x3 []) = .next u ∧ u.st = .faulted) ∧
      ∃ u, step (sent (faulted .illegalCommand) 0x3 []) = .next u ∧ u.st = .faulted :=
  ⟨⟨_, rfl⟩, ⟨_, rfl, rfl⟩, ⟨_, rfl, rfl⟩, ⟨_, rfl, rfl⟩, ⟨_, rfl, rfl⟩, ⟨_, rfl, rfl⟩, _, rfl, rfl⟩

theorem witness_EachCommandGetsOneResponse :
    (sent (finished .sha256 []) 0x4 []).input = .command ⟨0x4, []⟩ :: [] ∧ decode ⟨0x4, []⟩ = .ok .readDigest ∧
      (∃ u, step (sent (finished .sha256 []) 0x4 []) = .next u ∧ u.st = .finalized) ∧
      ∃ u, step (sent State.reset 0x4 []) = .next u ∧ u.st ≠ .finalized :=
  ⟨rfl, by decide, ⟨_, rfl, rfl⟩, _, rfl, by decide⟩

/-- The longest pending buffers of each variant, and the states with none. -/
theorem witness_StatusWordLayout :
    Inv (computing .accepting .sha512 (a 127)) ∧ ((computing .accepting .sha512 (a 127)).buf.getD []).length = 127 ∧
      Inv (computing .accepting .sha256 (a 63)) ∧ (computing .accepting .sha256 (a 63)).var = some .sha256 ∧
      ((computing .accepting .sha256 (a 63)).buf.getD []).length = 63 ∧ Inv (computing .fresh .sha256 []) ∧
      Inv (finished .sha256 []) ∧ Inv State.reset ∧ Inv (faulted .illegalCommand) :=
  ⟨accepting_inv _ _ (by rw [a_length]; decide), by decide +kernel, accepting_inv _ _ (by decide), rfl, by decide +kernel, fresh_inv _,
    finished_inv _ _ (by simp), reset_inv, .inr ⟨rfl, by decide, .idle, rfl, rfl, rfl, rfl, rfl⟩⟩

theorem witness_DigestDoesNotChangeWhileFinalized :
    (∃ u, step (sent (finished .sha256 []) 0x5 []) = .next u ∧ (finished .sha256 []).st = .finalized ∧
        u.st = .finalized) ∧
      (∃ u, step { finished .sha256 [] with input := [.reset] } = .next u ∧ u.st = .idle) ∧
      ∃ u, step (sent (finished .sha256 []) 0x1 []) = .next u ∧ u.st = .fresh :=
  ⟨⟨_, rfl, rfl, rfl⟩, ⟨_, rfl, rfl⟩, _, rfl, rfl⟩

theorem witness_VariantIsFixedBetweenInits :
    (∃ u, step { State.reset with input := [.reset] } = .next u) ∧ (∀ t, HostEvent.reset ≠ .command t) ∧
      (∃ u, step (sent State.reset 0x11 []) = .next u) ∧ decode ⟨0x11, []⟩ = .ok (.init .sha512) ∧
      (∃ u, step (sent State.reset 0x5 []) = .next u) ∧ ∀ v, decode ⟨0x5, []⟩ ≠ .ok (.init v) :=
  ⟨⟨_, rfl⟩, by simp, ⟨_, rfl⟩, by decide, ⟨_, rfl⟩, by intro v; cases v <;> decide⟩

theorem witness_RepeatedInitAndReadChangeNothingMore :
    (finished .sha256 []).st = .finalized ∧ (finished .sha256 []).dout = some (messageDigest .sha256 []) := ⟨rfl, rfl⟩

theorem witness_EveryStepKeepsTheInvariant :
    Inv (sent (computing .accepting .sha256 (a 63)) 0x10002 [0x61]) ∧
      ∃ u, step (sent (computing .accepting .sha256 (a 63)) 0x10002 [0x61]) = .next u :=
  ⟨accepting_inv _ _ (by decide), _, rfl⟩

theorem witness_NoStepStopsUnderTheInvariant : Inv (finished .sha512 (a 3)) := finished_inv _ _ (by decide)

theorem witness_OpenComputationCountsItsBytes :
    Inv (computing .accepting .sha256 (a 63)) ∧ Open (computing .accepting .sha256 (a 63)) ∧
      Inv (computing .fresh .sha512 []) ∧ (computing .fresh .sha512 []).st = .fresh :=
  ⟨accepting_inv _ _ (by decide), .inr rfl, fresh_inv _, rfl⟩

/-- The longest message there is, in one UPDATE. -/
theorem witness_UpdateExtendsTheMessage :
    Computing .sha256 [] (computing .fresh .sha256 []) ∧ Open (computing .fresh .sha256 []) ∧
      8 * (([] : List Byte).length + longest.length) ≤ 2 ^ 64 - 1 :=
  ⟨computing_fits (by simp), .inl rfl, by rw [longest_length]; decide⟩

theorem witness_FinalizeGivesTheDigestOfTheMessage :
    Computing .sha256 (a 56) (computing .accepting .sha256 (a 56)) ∧ Open (computing .accepting .sha256 (a 56)) ∧
      Computing .sha512 longest (computing .accepting .sha512 longest) :=
  ⟨computing_fits (by decide), .inr rfl, computing_fits (by rw [longest_length]; decide)⟩

/-- No chunk at all, and chunks of 0, 5 and 65535 bytes. -/
theorem witness_DigestIsTheSameForEveryChunking :
    (∀ c ∈ [[], hello, a 65535], c.length ≤ 65535) ∧ 8 * [[], hello, a 65535].flatten.length ≤ 2 ^ 64 - 1 ∧
      (∀ c ∈ ([] : List (List Byte)), c.length ≤ 65535) := by
  simp [a_length, hello]

theorem witness_OneShotReturnsTheMessageDigest : longest.length < 2 ^ 61 ∧ ([] : List Byte).length < 2 ^ 61 := by
  rw [longest_length]; decide

/-- Two contexts with different accumulators and buffers that a STATUS cannot tell apart. -/
theorem witness_HashStateIsNotObservable :
    Inv (sent (computing .accepting .sha256 [1]) 0x5 []) ∧ Inv (sent (computing .accepting .sha256 [2]) 0x5 []) ∧
      decode ⟨0x5, []⟩ ≠ .ok .finalize ∧
      (computing .accepting .sha256 [1]).cnt = (computing .accepting .sha256 [2]).cnt ∧
      (computing .accepting .sha256 [1]).dout = (computing .accepting .sha256 [2]).dout ∧
      (computing .accepting .sha256 [1]).buf ≠ (computing .accepting .sha256 [2]).buf ∧
      (computing .accepting .sha256 [1]).buf.map List.length = (computing .accepting .sha256 [2]).buf.map List.length ∧
      (∃ u, step (sent (computing .accepting .sha256 [1]) 0x5 []) = .next u) ∧
      ∃ u, step (sent (computing .accepting .sha256 [2]) 0x5 []) = .next u :=
  ⟨accepting_inv _ _ (by decide), accepting_inv _ _ (by decide), by decide, rfl, rfl, by decide, rfl, ⟨_, rfl⟩, _, rfl⟩

/-- Both sides of the one-block boundary. -/
theorem witness_PaddedBlocksAreWhole :
    (a 55).length < blockBytes .sha256 - lengthBytes .sha256 ∧ ¬ (a 56).length < blockBytes .sha256 - lengthBytes .sha256 ∧
      (a 63).length < blockBytes .sha256 ∧ (a 111).length < blockBytes .sha512 - lengthBytes .sha512 ∧
      ¬ (a 112).length < blockBytes .sha512 - lengthBytes .sha512 ∧ (a 127).length < blockBytes .sha512 := by decide

theorem witness_BigEndianConversionsAreInverse : 2 ^ 32 - 1 < 2 ^ (8 * 4) ∧ 0 < 2 ^ (8 * 0) ∧ (3 : Nat) < 4 := by decide

theorem witness_BlockBytesEnterTheirWords :
    (a 64).length = blockBytes .sha256 ∧ (a 128).length = blockBytes .sha512 := by decide

theorem witness_DigestBytesAreTheWordsInOrder : 31 < 8 * Variant.sha256.wb ∧ 63 < 8 * Variant.sha512.wb := by decide

theorem witness_DigestLengthDependsOnlyOnTheVariant :
    (Inv (finished .sha256 []) ∧ (finished .sha256 []).st = .finalized) ∧
      Inv (finished .sha512 []) ∧ (finished .sha512 []).st = .finalized :=
  ⟨⟨finished_inv _ _ (by simp), rfl⟩, finished_inv _ _ (by simp), rfl⟩

theorem witness_RotateAndShiftMoveBits : (0 < 31 ∧ 31 < 32 ∧ 31 < 32) ∧ (0 < 1 ∧ 1 < 64 ∧ 0 < 64) := by decide

theorem witness_ChooseAndMajorityActBitwise : (31 : Nat) < 32 ∧ (63 : Nat) < 64 := by decide

theorem witness_ScheduleFollowsTheRecurrence :
    (decodeBlock .sha256 (a 64)).length = 16 ∧ (decodeBlock .sha512 (a 128)).length = 16 ∧ 16 ≤ 16 ∧
      63 < (if Variant.sha256 = .sha256 then 64 else 80) ∧ 79 < (if Variant.sha512 = .sha256 then 64 else 80) := by
  refine ⟨rfl, rfl, ?_⟩
  decide

theorem witness_ScheduleStartsWithTheBlock :
    (List.replicate 16 (0 : Word .sha256)).length = 16 ∧ ∀ x ∈ List.replicate 16 (0 : Word .sha256), x = 0 :=
  ⟨rfl, fun _ h => List.eq_of_mem_replicate h⟩

theorem witness_CompressionRunsEveryRound :
    63 < (if Variant.sha256 = .sha256 then 64 else 80) ∧ 79 < (if Variant.sha512 = .sha256 then 64 else 80) := by decide

/-- Two instances; the second has a command to run. -/
theorem witness_InstancesDoNotInteract :
    (∃ q, platformStep 1 ⟨[State.reset, sent State.reset 0x1 []], [9, 5]⟩ = .next q) ∧
      ([State.reset, sent State.reset 0x1 []] : List State)[1]? = some (sent State.reset 0x1 []) ∧
      ([9, 5] : List Nat).Nodup ∧ ([9, 5] : List Nat)[1]? = some 5 ∧ platformOk (platformReset 2 [9, 5]) = true :=
  ⟨⟨_, rfl⟩, rfl, by decide, rfl, rfl⟩

theorem witness_DigestLiteralsParse :
    (a 32).length = digestBytes .sha256 ∧ (a 64).length = digestBytes .sha512 ∧
      parseLiteral .sha256 (hexText (a 32)) = .ok (a 32) := by decide

theorem witness_UpdateLinesAssemble : (a 65535).length ≤ 65535 ∧ 65535 < (a 65536).length := by
  simp [a_length]

end Sys2Proof.Tests
end

section
/-! Big-endian conversion (00_scope.md R14): the bytes of `BE_n`, the value of `fromBE`, and the two round trips, each
by induction on the last byte (`toBE_succ`, `fromBE_snoc`). -/

namespace Sys2Proof.Machine

/-- Every byte of `BE_n(v)`, as a digit of `v` to base 256; `v` need not fit in `n` bytes. -/
theorem toBE_getD_toNat {n k : Nat} (v : Nat) (hk : k < n) :
    ((toBE n v).getD k 0).toNat = v / 2 ^ (8 * (n - 1 - k)) % 256 := by
  simp [toBE, hk, Nat.shiftRight_eq_div_pow]

/-- `fromBE` keeps of `v` what its `n` low bytes hold. -/
theorem fromBE_toBE (n v : Nat) : fromBE (toBE n v) = v % 2 ^ (8 * n) := by
  induction n generalizing v with
  | zero => simp [toBE, fromBE, Nat.mod_one]
  | succ n ih =>
    rw [toBE_succ, fromBE_snoc, ih, show 2 ^ (8 * (n + 1)) = 256 * 2 ^ (8 * n) by ring, Nat.mod_mul,
      BitVec.toNat_ofNat]
    omega

theorem fromBE_toBE_of_lt {n v : Nat} (hv : v < 2 ^ (8 * n)) : fromBE (toBE n v) = v := by
  rw [fromBE_toBE, Nat.mod_eq_of_lt hv]

theorem fromBE_lt (s : List Byte) : fromBE s < 2 ^ (8 * s.length) := by
  induction s using List.reverseRecOn with
  | nil => simp [fromBE]
  | append_singleton s b ih =>
    have hb : b.toNat < 256 := b.isLt
    rw [fromBE_snoc, List.length_append, List.length_singleton, Nat.mul_add, pow_add]
    omega

/-- The sum of R14. A byte appended raises the weight of every byte before it by 256. -/
theorem fromBE_eq_sum (s : List Byte) :
    fromBE s = ∑ k ∈ Finset.range s.length, (s.getD k 0).toNat * 2 ^ (8 * (s.length - 1 - k)) := by
  induction s using List.reverseRecOn with
  | nil => rfl
  | append_singleton s b ih =>
    have hweight : ∀ k ∈ Finset.range s.length,
        (s.getD k 0).toNat * 2 ^ (8 * (s.length - 1 - k)) * 256 =
          ((s ++ [b]).getD k 0).toNat * 2 ^ (8 * (s.length - k)) := by
      intro k hk
      have hk : k < s.length := Finset.mem_range.1 hk
      rw [List.getD_append _ _ _ _ hk, show s.length - k = s.length - 1 - k + 1 by omega]
      ring
    rw [fromBE_snoc, ih, List.length_append, List.length_singleton, Finset.sum_range_succ, Finset.sum_mul,
      Nat.add_sub_cancel, Finset.sum_congr rfl hweight]
    simp

theorem toBE_fromBE (s : List Byte) : toBE s.length (fromBE s) = s := by
  induction s using List.reverseRecOn with
  | nil => rfl
  | append_singleton s b ih =>
    have hb : b.toNat < 256 := b.isLt
    have hinit : (fromBE s * 256 + b.toNat) / 256 = fromBE s := by omega
    have hlast : BitVec.ofNat 8 (fromBE s * 256 + b.toNat) = b := by
      apply BitVec.eq_of_toNat_eq
      rw [BitVec.toNat_ofNat]
      omega
    rw [List.length_append, List.length_singleton, toBE_succ, fromBE_snoc, hinit, hlast, ih]

/-- Settles O44: the two round trips, by induction on the last byte of the string. -/
theorem bigEndianConversionsAreInverse : Obligations.BigEndianConversionsAreInverse :=
  ⟨fun n v hv => ⟨toBE_length n v, fun _ hk => toBE_getD_toNat v hk, fromBE_toBE_of_lt hv⟩,
    fun s => ⟨fromBE_eq_sum s, fromBE_lt s, toBE_fromBE s⟩⟩

end Sys2Proof.Machine
end

section
/-! The byte loop and the padding over a message: ABSORB continues the reference accumulator, and the padded tail of a
message is what follows its complete blocks in the padded message (43_padding.md R171-R175). -/

namespace Sys2Proof.Machine

theorem messageAccumulator_snoc_of_eq {v : Variant} {m : List Byte} {x : Byte}
    (e : (tailBytes v m ++ [x]).length = blockBytes v) :
    messageAccumulator v (m ++ [x]) = processBlock v (messageAccumulator v m) (tailBytes v m ++ [x]) := by
  simp [messageAccumulator, (blocks_snoc_of_eq e).1, processBlocks]

theorem messageAccumulator_snoc_of_ne {v : Variant} {m : List Byte} {x : Byte}
    (e : (tailBytes v m ++ [x]).length ≠ blockBytes v) :
    messageAccumulator v (m ++ [x]) = messageAccumulator v m := by
  rw [messageAccumulator, (blocks_snoc_of_ne e).1, messageAccumulator]

/-- ABSORB takes the computation over `m` to the one over `m ++ p`. -/
theorem absorb_message (v : Variant) (m p : List Byte) :
    absorb v (messageAccumulator v m) (tailBytes v m) p = (messageAccumulator v (m ++ p), tailBytes v (m ++ p)) := by
  induction p generalizing m with
  | nil => simp
  | cons x p ih =>
    have ihx := ih (m ++ [x])
    rw [List.append_assoc, List.singleton_append] at ihx
    by_cases e : (tailBytes v m ++ [x]).length = blockBytes v
    · rw [absorb_cons_of_eq e, ← messageAccumulator_snoc_of_eq e, ← ihx, (blocks_snoc_of_eq e).2]
    · rw [absorb_cons_of_ne e, ← messageAccumulator_snoc_of_ne e, ← ihx, (blocks_snoc_of_ne e).2]

theorem messageAccumulator_append (v : Variant) (m p : List Byte) :
    messageAccumulator v (m ++ p) = (absorb v (messageAccumulator v m) (tailBytes v m) p).1 := by rw [absorb_message]

/-- A payload that completes the pending block exactly is one run of PROCESS_BLOCK. -/
theorem absorb_complete {v : Variant} (h : Words8 v.w) {b p : List Byte} (hp : p ≠ [])
    (hl : (b ++ p).length = blockBytes v) : absorb v h b p = (processBlock v h (b ++ p), []) := by
  induction p generalizing b with
  | nil => exact absurd rfl hp
  | cons x p ih =>
    by_cases hnil : p = []
    · subst hnil
      rw [absorb_cons_of_eq hl, absorb_nil]
    · have hshort : (b ++ [x]).length ≠ blockBytes v := by
        have := List.length_pos_iff.2 hnil
        simp at hl ⊢
        omega
      rw [absorb_cons_of_ne hshort, ih hnil (by simpa using hl), List.append_assoc, List.singleton_append]

@[simp] theorem messageAccumulator_nil (v : Variant) : messageAccumulator v [] = iv v := by
  simp [messageAccumulator, blocks_short, blockBytes_pos, processBlocks]

@[simp] theorem tailBytes_nil (v : Variant) : tailBytes v [] = [] := tailBytes_short (blockBytes_pos v)

theorem tailBytes_length_lt (v : Variant) (m : List Byte) : (tailBytes v m).length < blockBytes v := by
  rw [tailBytes_length]; exact Nat.mod_lt _ (blockBytes_pos v)

/-- R175: the length field fits behind the marker in the block of the tail. -/
theorem zeroFill_of_lt {v : Variant} {n : Nat} (h : n % blockBytes v < blockBytes v - lengthBytes v) :
    zeroFill v n = blockBytes v - lengthBytes v - n % blockBytes v - 1 := by
  cases v <;> simp only [zeroFill, blockBytes, lengthBytes] at h ⊢ <;> omega

/-- R175: the zeros run to the end of the tail's block and through the next one, up to the length field. -/
theorem zeroFill_of_le {v : Variant} {n : Nat} (h : ¬ n % blockBytes v < blockBytes v - lengthBytes v) :
    zeroFill v n = (blockBytes v - n % blockBytes v - 1) + (blockBytes v - lengthBytes v) := by
  cases v <;> simp only [zeroFill, blockBytes, lengthBytes] at h ⊢ <;> omega

theorem lengthBytes_lt_blockBytes (v : Variant) : lengthBytes v < blockBytes v := by cases v <;> decide

theorem count_toNat {n : Nat} (h : 8 * n ≤ Config.counterMax) : (BitVec.ofNat 64 (8 * n)).toNat = 8 * n := by
  simp only [Config.counterMax] at h
  rw [BitVec.toNat_ofNat]
  omega

/-- The byte loop on the marker, the zeros and the length field runs PROCESS_BLOCK on the blocks of PAD. -/
theorem absorb_padding {v : Variant} (h : Words8 v.w) {buf : List Byte} {n : Nat} (c : BitVec 64)
    (hn : n % blockBytes v = buf.length) (hbuf : buf.length < blockBytes v) :
    (absorb v h buf ([marker] ++ zeros (zeroFill v n) ++ lengthField v c)).1 = processBlocks v h (pad v buf c) := by
  have hL := lengthBytes_lt_blockBytes v
  have hfield : (lengthField v c).length = lengthBytes v := toBE_length _ _
  unfold pad
  split
  next hfit =>
    rw [zeroFill_of_lt (hn ▸ hfit), hn, absorb_complete h (by simp) (by simp; omega)]
    simp [processBlocks]
  next hfit =>
    have hz : zeros (zeroFill v n) = zeros (blockBytes v - buf.length - 1) ++ zeros (blockBytes v - lengthBytes v) := by
      rw [zeroFill_of_le (hn ▸ hfit), hn]
      simp [zeros]
    rw [hz, ← List.append_assoc, List.append_assoc ([marker] ++ _), absorb_append,
      absorb_complete h (by simp) (by simp; omega),
      absorb_complete _ (List.ne_nil_of_length_pos (by simp; omega)) (by simp; omega)]
    simp [processBlocks]

/-- The blocks of PAD end the computation over `m` in the accumulator of the padded message. -/
theorem processBlocks_pad {v : Variant} {m : List Byte} (h : 8 * m.length ≤ Config.counterMax) :
    processBlocks v (messageAccumulator v m) (pad v (tailBytes v m) (BitVec.ofNat 64 (8 * m.length))) =
      finalAccumulator v m := by
  rw [finalAccumulator, paddedMessage, List.append_assoc, List.append_assoc, ← List.append_assoc [marker],
    messageAccumulator_append, ← absorb_padding _ _ (tailBytes_length v m).symm (tailBytes_length_lt v m), lengthField,
    count_toNat h]

end Sys2Proof.Machine
end

section
/-! The invariant of 10_state.md R32: which updates of the state keep it, and what an open computation holds under it. -/

namespace Sys2Proof.Machine

/-! ### Fault entry with its response -/

section
variable (s : State) (c : FaultCode)

@[simp] theorem State.faultedWith_st : (s.faultedWith c).st = .faulted := s.enterFault_st c
@[simp] theorem State.faultedWith_var : (s.faultedWith c).var = s.var := rfl
@[simp] theorem State.faultedWith_dout : (s.faultedWith c).dout = s.dout := rfl

theorem State.faultedWith_fcode_of_ne (h : s.st ≠ .faulted) : (s.faultedWith c).fcode = c := if_neg h

end

/-- `step_next` with the two rejections of a transaction as one: a step does nothing, resets the context, runs a
command, or faults. -/
theorem step_next_event {s u : State} (e : step s = .next u) :
    (s.input = [] ∧ u = s) ∨
    (∃ ev rest, s.input = ev :: rest ∧ (∀ t, ev ≠ .command t) ∧ u = (s.withInput rest).resetContext) ∨
    (∃ t rest, s.input = .command t :: rest ∧
      ((∃ i, decode t = .ok i ∧ exec i (s.withInput rest) = .next u) ∨
        ∃ er c, decode t = .error er ∧ c ≠ .noFault ∧ u = (s.withInput rest).faultedWith c)) := by
  rcases step_next e with h | h | ⟨t, rest, i, hin, hd, e⟩ | ⟨t, rest, hin, hd, hu⟩ | ⟨t, rest, hin, hd, hu⟩
  · exact .inl h
  · exact .inr (.inl h)
  · exact .inr (.inr ⟨t, rest, hin, .inl ⟨i, hd, e⟩⟩)
  · exact .inr (.inr ⟨t, rest, hin, .inr ⟨_, .illegalCommand, hd, by decide, hu⟩⟩)
  · exact .inr (.inr ⟨t, rest, hin, .inr ⟨_, .payloadMismatch, hd, by decide, hu⟩⟩)

/-! ### The context of a computation -/

theorem accumulatorOf_injective (v : Variant) {h k : Words8 v.w} (e : accumulatorOf v h = accumulatorOf v k) : h = k := by
  simpa using congrArg (accumulatorWords v) e

theorem computing_startComputation (v : Variant) (s : State) : Computing v [] (s.startComputation v) := by
  simp [Computing]

theorem Computing.putAbsorbed {v : Variant} {m p : List Byte} {s : State} (hs : Computing v m s)
    (hlen : 8 * (m.length + p.length) ≤ Config.counterMax) :
    Computing v (m ++ p)
      (s.putAbsorbed (accumulatorOf v (absorb v (messageAccumulator v m) (tailBytes v m) p).1)
        (absorb v (messageAccumulator v m) (tailBytes v m) p).2
        (BitVec.ofNat 64 (8 * m.length) + BitVec.ofNat 64 (8 * p.length))) := by
  obtain ⟨hvar, -, -, -, -, hdout⟩ := hs
  refine ⟨hvar, ?_, ?_, ?_, by rwa [List.length_append], hdout⟩
  · simp [absorb_message]
  · simp [absorb_message]
  · rw [State.putAbsorbed_cnt, List.length_append, Nat.mul_add, BitVec.ofNat_add]

theorem Computing.putDigest {v : Variant} {m : List Byte} {s : State} (hs : Computing v m s) :
    Finished v m
      (s.putDigest
        (accumulatorOf v
          (processBlocks v (messageAccumulator v m) (pad v (tailBytes v m) (BitVec.ofNat 64 (8 * m.length)))))
        (serialize v
          (processBlocks v (messageAccumulator v m) (pad v (tailBytes v m) (BitVec.ofNat 64 (8 * m.length)))))) := by
  obtain ⟨hvar, -, -, hcnt, hlen, -⟩ := hs
  rw [processBlocks_pad hlen]
  exact ⟨hvar, rfl, rfl, hcnt, hlen, rfl⟩

/-! ### The invariant -/

theorem inv_of_fits {s : State} (st : CoreState) (hst : s.st = st) (hne : st ≠ .faulted) (hf : s.fcode = .noFault)
    (h : ContextFits st s) : Inv s := by
  subst hst
  exact .inl ⟨hne, hf, h⟩

theorem Computing.inv {v : Variant} {m : List Byte} {s : State} (h : Computing v m s) (hst : s.st = .accepting)
    (hf : s.fcode = .noFault) : Inv s := inv_of_fits .accepting hst (by decide) hf ⟨v, m, h⟩

theorem Finished.inv {v : Variant} {m : List Byte} {s : State} (h : Finished v m s) (hst : s.st = .finalized)
    (hf : s.fcode = .noFault) : Inv s := inv_of_fits .finalized hst (by decide) hf ⟨v, m, h⟩

theorem inv_resetContext (s : State) : Inv s.resetContext :=
  inv_of_fits .idle rfl (by decide) rfl ⟨rfl, rfl, rfl, rfl, rfl⟩

theorem Inv.fits {s : State} (h : Inv s) (hst : s.st ≠ .faulted) : s.fcode = .noFault ∧ ContextFits s.st s := by
  rcases h with ⟨-, hf, hfit⟩ | ⟨hfaulted, -⟩
  · exact ⟨hf, hfit⟩
  · exact absurd hfaulted hst

/-- In Faulted the context fits the state before the fault (log entry 15). -/
theorem Inv.exists_fits {s : State} (h : Inv s) : ∃ st, ContextFits st s := by
  rcases h with ⟨-, -, hfit⟩ | ⟨-, -, hfit⟩
  · exact ⟨s.st, hfit⟩
  · exact hfit

/-- R27: `fcode` is nonzero exactly in Faulted. -/
theorem Inv.fcode_ne_iff {s : State} (h : Inv s) : s.fcode ≠ .noFault ↔ s.st = .faulted := by
  rcases h with ⟨hst, hf, -⟩ | ⟨hst, hf, -⟩ <;> simp [hst, hf]

theorem Inv.withInput {s : State} (h : Inv s) (l : List HostEvent) : Inv (s.withInput l) := h

theorem Inv.withResponse {s : State} (h : Inv s) (d : List Byte) : Inv (s.withResponse d) := h

theorem Inv.enterFault {s : State} (h : Inv s) {c : FaultCode} (hc : c ≠ .noFault) : Inv (s.enterFault c) := by
  by_cases hst : s.st = .faulted
  · rwa [s.enterFault_of_eq c hst]
  · refine .inr ⟨s.enterFault_st c, ?_, h.exists_fits⟩
    rwa [s.enterFault_fcode, if_neg hst]

theorem Inv.faultedWith {s : State} (h : Inv s) {c : FaultCode} (hc : c ≠ .noFault) : Inv (s.faultedWith c) :=
  (h.enterFault hc).withResponse []

theorem ne_faulted_of_open {s : State} (h : Open s) : s.st ≠ .faulted := by rcases h with h | h <;> simp [h]

theorem Inv.fcode_of_open {s : State} (h : Inv s) (ho : Open s) : s.fcode = .noFault :=
  (h.fits (ne_faulted_of_open ho)).1

theorem Inv.computing_of_open {s : State} (h : Inv s) (ho : Open s) : ∃ v m, Computing v m s := by
  obtain ⟨-, hfit⟩ := h.fits (ne_faulted_of_open ho)
  rcases ho with hst | hst <;> rw [hst] at hfit
  · obtain ⟨v, hv⟩ := hfit
    exact ⟨v, [], hv⟩
  · exact hfit

/-- The values an open computation works on are those of a message. -/
theorem Inv.open_values {s : State} (hi : Inv s) (ho : Open s) {v : Variant} {h : Words8 v.w} {b : List Byte}
    {c : BitVec 64} (hv : s.var = some v) (hh : s.H = some (accumulatorOf v h)) (hb : s.buf = some b)
    (hc : s.cnt = some c) :
    ∃ m, Computing v m s ∧ h = messageAccumulator v m ∧ b = tailBytes v m ∧ c = BitVec.ofNat 64 (8 * m.length) ∧
      c.toNat = 8 * m.length := by
  obtain ⟨w, m, hm⟩ := hi.computing_of_open ho
  have ⟨hvar, hacc, hbuf, hcnt, hlen, _⟩ := hm
  obtain rfl : v = w := Option.some.inj (hv.symm.trans hvar)
  have hc' := Option.some.inj (hc.symm.trans hcnt)
  exact ⟨m, hm, accumulatorOf_injective v (Option.some.inj (hh.symm.trans hacc)), Option.some.inj (hb.symm.trans hbuf),
    hc', by rw [hc', count_toNat hlen]⟩

theorem inv_startComputation (v : Variant) (s : State) : Inv (s.startComputation v) :=
  inv_of_fits .fresh rfl (by decide) rfl ⟨v, computing_startComputation v s⟩

theorem Inv.exec {i : Instr} {s u : State} (hi : Inv s) (e : exec i s = .next u) : Inv u := by
  rcases exec_next e with ⟨v, -, rfl⟩ | ⟨p, v, h, b, c, -, ho, hv, hh, hb, hc, hle, rfl⟩ |
    ⟨v, h, b, c, -, ho, hv, hh, hb, hc, rfl⟩ | ⟨d, -, -, -, rfl⟩ | ⟨-, rfl⟩ | ⟨-, -, -, rfl⟩ |
    ⟨-, -, -, c, hc, rfl⟩
  · exact (inv_startComputation v s).withResponse _
  · obtain ⟨m, hm, rfl, rfl, rfl, hcount⟩ := hi.open_values ho hv hh hb hc
    have hlen : 8 * (m.length + p.length) ≤ Config.counterMax := by omega
    exact ((hm.putAbsorbed hlen).inv rfl (hi.fcode_of_open ho)).withResponse _
  · obtain ⟨m, hm, rfl, rfl, rfl, -⟩ := hi.open_values ho hv hh hb hc
    exact (hm.putDigest.inv rfl (hi.fcode_of_open ho)).withResponse _
  · exact hi.withResponse d
  · exact hi.withResponse []
  · exact hi.withResponse []
  · exact hi.faultedWith hc

/-- Settles O33: each event keeps the invariant, UPDATE by `absorb_message` and FINALIZE by `processBlocks_pad`. -/
theorem everyStepKeepsTheInvariant : Obligations.EveryStepKeepsTheInvariant := by
  intro s u hi e
  rcases step_next_event e with ⟨-, rfl⟩ | ⟨ev, rest, -, -, rfl⟩ | ⟨t, rest, -, ⟨i, -, e⟩ | ⟨er, c, -, hc, rfl⟩⟩
  · exact hi
  · exact inv_resetContext _
  · exact (hi.withInput rest).exec e
  · exact (hi.withInput rest).faultedWith hc

/-- Settles O32: the reset state is its own reset. -/
theorem invariantHoldsAfterReset : Obligations.InvariantHoldsAfterReset := inv_resetContext State.reset

/-- Settles O35: the values of `Computing`, with the message empty in Fresh. -/
theorem openComputationCountsItsBytes : Obligations.OpenComputationCountsItsBytes := by
  intro s hi ho
  obtain ⟨v, m, hvar, -, hbuf, hcnt, hlen, -⟩ := hi.computing_of_open ho
  have hcount := count_toNat hlen
  refine ⟨v, _, _, hvar, hbuf, hcnt, tailBytes_length_lt v m, by omega, ?_, fun hfresh => ?_⟩
  · rw [tailBytes_length, hcount, Nat.mul_div_cancel_left _ (by decide)]
  · obtain ⟨-, hfit⟩ := hi.fits (ne_faulted_of_open ho)
    rw [hfresh] at hfit
    obtain ⟨w, hvar', hacc, hbuf', hcnt', -⟩ := hfit
    obtain rfl : v = w := Option.some.inj (hvar.symm.trans hvar')
    exact ⟨by simpa using hbuf.symm.trans hbuf', by simpa using hcnt.symm.trans hcnt', by simpa using hacc⟩

end Sys2Proof.Machine
end

section
/-! What a step does to `st`, `var` and `dout` (10_state.md R21, R26, R31), from the inversion of the commands. -/

namespace Sys2Proof.Machine

/-- R31 for a command: the arc of the table it takes. -/
theorem exec_transition {i : Instr} {s u : State} (e : exec i s = .next u) :
    (∃ v, i = .init v ∧ u.st = .fresh) ∨ (∃ p, i = .update p ∧ Open s ∧ u.st = .accepting) ∨
      (i = .finalize ∧ Open s ∧ u.st = .finalized) ∨ (i = .readDigest ∧ s.st = .finalized ∧ u.st = .finalized) ∨
      (i = .status ∧ u.st = s.st) ∨ (s.st ≠ .faulted ∧ u.st = .faulted ∧ u.fcode ≠ .noFault) ∨
      (s.st = .faulted ∧ u.st = .faulted ∧ (∀ v, i ≠ .init v) ∧ i ≠ .status) := by
  rcases exec_next e with ⟨v, hi, rfl⟩ | ⟨p, v, h, b, c, hi, ho, -, -, -, -, -, rfl⟩ |
    ⟨v, h, b, c, hi, ho, -, -, -, -, rfl⟩ | ⟨d, hi, hst, -, rfl⟩ | ⟨hi, rfl⟩ | ⟨hinit, hstatus, hst, rfl⟩ |
    ⟨-, -, hst, c, hc, rfl⟩
  · exact .inl ⟨v, hi, rfl⟩
  · exact .inr (.inl ⟨p, hi, ho, rfl⟩)
  · exact .inr (.inr (.inl ⟨hi, ho, rfl⟩))
  · exact .inr (.inr (.inr (.inl ⟨hi, hst, hst⟩)))
  · exact .inr (.inr (.inr (.inr (.inl ⟨hi, rfl⟩))))
  · exact .inr (.inr (.inr (.inr (.inr (.inr ⟨hst, hst, hinit, hstatus⟩)))))
  · exact .inr (.inr (.inr (.inr (.inr (.inl
      ⟨hst, s.faultedWith_st c, (s.faultedWith_fcode_of_ne c hst).symm ▸ hc⟩)))))

/-- R21 for a command. -/
theorem exec_var {i : Instr} {s u : State} (e : exec i s = .next u) :
    (∀ v, i = .init v → u.var = some v) ∧ ((∀ v, i ≠ .init v) → u.var = s.var) := by
  rcases exec_next e with ⟨v, rfl, rfl⟩ | ⟨p, v, h, b, c, rfl, -, -, -, -, -, -, rfl⟩ |
    ⟨v, h, b, c, rfl, -, -, -, -, -, rfl⟩ | ⟨d, rfl, -, -, rfl⟩ | ⟨rfl, rfl⟩ | ⟨hinit, -, -, rfl⟩ |
    ⟨hinit, -, -, c, -, rfl⟩
  · simp
  · exact ⟨nofun, fun _ => rfl⟩
  · exact ⟨nofun, fun _ => rfl⟩
  · exact ⟨nofun, fun _ => rfl⟩
  · exact ⟨nofun, fun _ => rfl⟩
  · exact ⟨fun v h => absurd h (hinit v), fun _ => rfl⟩
  · exact ⟨fun v h => absurd h (hinit v), fun _ => rfl⟩

/-- R26 for a command: `dout` is cleared by INIT, written by FINALIZE from an open computation, and otherwise kept. -/
theorem exec_dout {i : Instr} {s u : State} (e : exec i s = .next u) :
    (u.st = .fresh ∧ u.dout = none) ∨ (Open s ∧ u.st = .finalized) ∨
      (u.dout = s.dout ∧ (u.st = s.st ∨ u.st = .accepting ∨ u.st = .faulted)) := by
  rcases exec_next e with ⟨v, -, rfl⟩ | ⟨p, v, h, b, c, -, -, -, -, -, -, -, rfl⟩ |
    ⟨v, h, b, c, -, ho, -, -, -, -, rfl⟩ | ⟨d, -, -, -, rfl⟩ | ⟨-, rfl⟩ | ⟨-, -, -, rfl⟩ | ⟨-, -, -, c, -, rfl⟩
  · exact .inl ⟨rfl, rfl⟩
  · exact .inr (.inr ⟨rfl, .inr (.inl rfl)⟩)
  · exact .inr (.inl ⟨ho, rfl⟩)
  · exact .inr (.inr ⟨rfl, .inl rfl⟩)
  · exact .inr (.inr ⟨rfl, .inl rfl⟩)
  · exact .inr (.inr ⟨rfl, .inl rfl⟩)
  · exact .inr (.inr ⟨rfl, .inr (.inr (s.faultedWith_st c))⟩)

/-- Settles O25: a transaction takes the arc of its command, or faults. -/
theorem stateTransitionsAreThoseOfTheTable : Obligations.StateTransitionsAreThoseOfTheTable := by
  intro s u e
  rcases step_next_event e with ⟨hin, rfl⟩ | ⟨ev, rest, hin, hev, rfl⟩ |
    ⟨t, rest, hin, ⟨i, hd, e⟩ | ⟨er, c, hd, hc, rfl⟩⟩
  · exact .inl ⟨hin, rfl⟩
  · exact .inr ⟨ev, rest, hin, .inl ⟨hev, rfl⟩⟩
  · refine .inr ⟨_, rest, hin, .inr ⟨t, rfl, ?_⟩⟩
    simpa [hd, Open] using exec_transition e
  · refine .inr ⟨_, rest, hin, .inr ⟨t, rfl, ?_⟩⟩
    by_cases hst : s.st = .faulted
    · simp [hd, hst]
    · simp [hd, hst, (s.withInput rest).faultedWith_fcode_of_ne c hst, hc]

/-- Settles O29: FINALIZE alone writes a digest, and not from Finalized. -/
theorem digestDoesNotChangeWhileFinalized : Obligations.DigestDoesNotChangeWhileFinalized := by
  intro s u e
  rcases step_next_event e with ⟨-, rfl⟩ | ⟨ev, rest, -, -, rfl⟩ | ⟨t, rest, -, ⟨i, -, e⟩ | ⟨er, c, -, -, rfl⟩⟩
  · exact ⟨fun _ _ => rfl, fun h hne => absurd h hne, fun h hne => absurd h hne⟩
  · simp
  · rcases exec_dout e with ⟨hst, hdout⟩ | ⟨ho, hst⟩ | ⟨hdout, hst⟩
    · simp [hst, hdout]
    · rcases ho with ho | ho <;> simp_all
    · rcases hst with hst | hst | hst <;> simp_all
  · simp

/-- Settles O30: by the cases of a step. -/
theorem variantIsFixedBetweenInits : Obligations.VariantIsFixedBetweenInits := by
  intro s u e
  rcases step_next_event e with ⟨hin, rfl⟩ | ⟨ev, rest, hin, hev, rfl⟩ |
    ⟨t, rest, hin, ⟨i, hd, e⟩ | ⟨er, c, hd, -, rfl⟩⟩
  · simp [hin]
  · refine ⟨fun _ _ _ _ => rfl, fun t _ ht => ?_⟩
    exact absurd (List.cons.inj (hin.symm.trans ht)).1 (hev t)
  · simpa [hin, hd] using exec_var e
  · simp [hin, hd]

end Sys2Proof.Machine
end

section
/-! The status word under the invariant (10_state.md R33-R37), and what a response shows of `H` and `buf` (R38). -/

namespace Sys2Proof.Machine

theorem stateCode_toNat (st : CoreState) : (stateCode st).toNat = stateNumber st := by cases st <;> rfl

theorem faultCodeBits_toNat (c : FaultCode) : (faultCodeBits c).toNat = faultNumber c := by cases c <;> rfl

theorem variantStatus_toNat (o : Option Variant) : (variantStatus o).toNat = if o = some .sha512 then 1 else 0 := by
  rcases o with _ | _ | _ <;> rfl

theorem bufferStatus_toNat {o : Option (List Byte)} (h : (o.getD []).length ≤ 127) :
    (bufferStatus o).toNat = (o.getD []).length := by
  cases o with
  | none => rfl
  | some b => exact Nat.mod_eq_of_lt (Nat.lt_succ_of_le h)

theorem faultNumber_ne_zero_iff (c : FaultCode) : faultNumber c ≠ 0 ↔ c ≠ .noFault := by cases c <;> decide

theorem stateNumber_eq_four_iff (st : CoreState) : stateNumber st = 4 ↔ st = .faulted := by cases st <;> decide

theorem Computing.buffer_lt {v : Variant} {m : List Byte} {s : State} (h : Computing v m s) :
    (s.buf.getD []).length < blockBytes v := by
  obtain ⟨-, -, hbuf, -⟩ := h
  rw [hbuf]
  exact tailBytes_length_lt v m

/-- R32: `buf` is shorter than a block of the variant, if there is a variant, and absent or empty otherwise. -/
theorem ContextFits.buffer_lt {st : CoreState} {s : State} (h : ContextFits st s) :
    (s.var = none ∧ (s.buf.getD []).length = 0) ∨ ∃ v, s.var = some v ∧ (s.buf.getD []).length < blockBytes v := by
  cases st with
  | idle =>
    obtain ⟨hvar, -, hbuf, -⟩ := h
    exact .inl ⟨hvar, by rw [hbuf]; rfl⟩
  | fresh =>
    obtain ⟨v, hm⟩ := h
    exact .inr ⟨v, hm.1, hm.buffer_lt⟩
  | accepting =>
    obtain ⟨v, m, hm⟩ := h
    exact .inr ⟨v, hm.1, hm.buffer_lt⟩
  | finalized =>
    obtain ⟨v, m, hvar, -, hbuf, -⟩ := h
    exact .inr ⟨v, hvar, by rw [hbuf]; exact blockBytes_pos v⟩
  | faulted => exact h.elim

theorem Inv.buffer_length_le {s : State} (h : Inv s) :
    (s.buf.getD []).length ≤ 127 ∧ (s.var = some .sha256 → (s.buf.getD []).length ≤ 63) := by
  obtain ⟨st, hfit⟩ := h.exists_fits
  rcases hfit.buffer_lt with ⟨-, hlen⟩ | ⟨v, hvar, hlen⟩
  · omega
  · cases v with
    | sha256 => exact ⟨by simp only [blockBytes] at hlen; omega, fun _ => Nat.le_of_lt_succ hlen⟩
    | sha512 => exact ⟨Nat.le_of_lt_succ hlen, by simp [hvar]⟩

theorem Inv.buffer_length_eq_zero {s : State} (h : Inv s) (hst : s.st = .idle ∨ s.st = .fresh ∨ s.st = .finalized) :
    (s.buf.getD []).length = 0 := by
  obtain ⟨-, hfit⟩ := h.fits (by rcases hst with hst | hst | hst <;> simp [hst])
  rcases hst with hst | hst | hst <;> rw [hst] at hfit
  · obtain ⟨-, -, hbuf, -⟩ := hfit
    simp [hbuf]
  · obtain ⟨v, -, -, hbuf, -⟩ := hfit
    simp [hbuf]
  · obtain ⟨v, m, -, -, hbuf, -⟩ := hfit
    simp [hbuf]

/-- Settles O27: the word is the sum of its fields, and the invariant bounds `buf` and `fcode`. -/
theorem statusWordLayout : Obligations.StatusWordLayout := by
  refine ⟨by decide, fun s h => ?_⟩
  obtain ⟨hle, hle256⟩ := h.buffer_length_le
  refine ⟨?_, hle, hle256, h.buffer_length_eq_zero, ?_⟩
  · rw [statusWord_toNat, stateCode_toNat, variantStatus_toNat, faultCodeBits_toNat, bufferStatus_toNat hle]
  · rw [faultNumber_ne_zero_iff, stateNumber_eq_four_iff, h.fcode_ne_iff]

/-! ### What responses show -/

/-- The two contexts agree but for `H` and the bytes of `buf`. -/
structure SameButHashState (s₁ s₂ : State) : Prop where
  st : s₁.st = s₂.st
  var : s₁.var = s₂.var
  cnt : s₁.cnt = s₂.cnt
  dout : s₁.dout = s₂.dout
  fcode : s₁.fcode = s₂.fcode
  bufLength : s₁.buf.map List.length = s₂.buf.map List.length

/-- Where both outcomes are next states, their last responses are the same. -/
def SameResponse (o₁ o₂ : Outcome) : Prop :=
  ∀ u₁ u₂, o₁ = .next u₁ → o₂ = .next u₂ → u₁.responses.getLast? = u₂.responses.getLast?

/-- The loop cuts at the same places whatever the bytes. -/
theorem absorb_snd_length_congr (v : Variant) (h₁ h₂ : Words8 v.w) {b₁ b₂ : List Byte} (p : List Byte)
    (hlen : b₁.length = b₂.length) : (absorb v h₁ b₁ p).2.length = (absorb v h₂ b₂ p).2.length := by
  induction p generalizing h₁ h₂ b₁ b₂ with
  | nil => simpa using hlen
  | cons x p ih =>
    have hsnoc : (b₁ ++ [x]).length = (b₂ ++ [x]).length := by simpa using hlen
    by_cases e : (b₁ ++ [x]).length = blockBytes v
    · rw [absorb_cons_of_eq e, absorb_cons_of_eq (hsnoc ▸ e), ih _ _ rfl]
    · rw [absorb_cons_of_ne e, absorb_cons_of_ne (hsnoc ▸ e), ih _ _ hsnoc]

namespace SameButHashState

variable {s₁ s₂ : State}

theorem statusWord_eq (h : SameButHashState s₁ s₂) : statusWord s₁ = statusWord s₂ :=
  statusWord_congr h.st h.var h.fcode h.bufLength

theorem withInput (h : SameButHashState s₁ s₂) (l : List HostEvent) :
    SameButHashState (s₁.withInput l) (s₂.withInput l) := ⟨h.st, h.var, h.cnt, h.dout, h.fcode, h.bufLength⟩

theorem startComputation (v : Variant) : SameButHashState (s₁.startComputation v) (s₂.startComputation v) :=
  ⟨rfl, rfl, rfl, rfl, rfl, rfl⟩

theorem enterFault (h : SameButHashState s₁ s₂) (c : FaultCode) :
    SameButHashState (s₁.enterFault c) (s₂.enterFault c) where
  st := by simp
  var := h.var
  cnt := h.cnt
  dout := h.dout
  fcode := by rw [s₁.enterFault_fcode, s₂.enterFault_fcode, h.st, h.fcode]
  bufLength := h.bufLength

theorem putAbsorbed (h : SameButHashState s₁ s₂) (a₁ a₂ : Accumulator) {b₁ b₂ : List Byte} (c : BitVec 64)
    (hlen : b₁.length = b₂.length) : SameButHashState (s₁.putAbsorbed a₁ b₁ c) (s₂.putAbsorbed a₂ b₂ c) :=
  ⟨rfl, h.var, rfl, h.dout, h.fcode, congrArg some hlen⟩

theorem respond (h : SameButHashState s₁ s₂) (d : List Byte) :
    SameResponse (Machine.respond d s₁) (Machine.respond d s₂) := by
  intro u₁ u₂ e₁ e₂
  rw [respond_next e₁, respond_next e₂]
  simp [h.statusWord_eq]

theorem raiseFault (h : SameButHashState s₁ s₂) (c : FaultCode) :
    SameResponse (Machine.raiseFault c s₁) (Machine.raiseFault c s₂) := (h.enterFault c).respond []

theorem updateComputation (h : SameButHashState s₁ s₂) (p : List Byte) :
    SameResponse (Machine.updateComputation p s₁) (Machine.updateComputation p s₂) := by
  intro u₁ u₂ e₁ e₂
  obtain ⟨v, k₁, b₁, c, hv₁, -, hb₁, hc₁, e₁⟩ := withComputation_next e₁
  obtain ⟨v₂, k₂, b₂, c₂, hv₂, -, hb₂, hc₂, e₂⟩ := withComputation_next e₂
  obtain rfl : v = v₂ := Option.some.inj (hv₁.symm.trans (h.var.trans hv₂))
  obtain rfl : c = c₂ := Option.some.inj (hc₁.symm.trans (h.cnt.trans hc₂))
  have hlen : b₁.length = b₂.length := by simpa [hb₁, hb₂] using h.bufLength
  split at e₁
  next hover =>
    rw [if_pos hover] at e₂
    exact h.raiseFault _ u₁ u₂ e₁ e₂
  next hover =>
    rw [if_neg hover] at e₂
    exact (h.putAbsorbed _ _ _ (absorb_snd_length_congr v k₁ k₂ p hlen)).respond [] u₁ u₂ e₁ e₂

theorem execUpdate (h : SameButHashState s₁ s₂) (p : List Byte) :
    SameResponse (Machine.execUpdate p s₁) (Machine.execUpdate p s₂) := by
  unfold Machine.execUpdate
  rw [h.st]
  cases s₂.st with
  | idle => exact h.raiseFault _
  | fresh => exact h.updateComputation p
  | accepting => exact h.updateComputation p
  | finalized => exact h.raiseFault _
  | faulted => exact h.respond []

theorem execReadDigest (h : SameButHashState s₁ s₂) :
    SameResponse (Machine.execReadDigest s₁) (Machine.execReadDigest s₂) := by
  unfold Machine.execReadDigest
  rw [h.st, h.dout]
  cases s₂.st with
  | idle => exact h.raiseFault _
  | fresh => exact h.raiseFault _
  | accepting => exact h.raiseFault _
  | finalized =>
    cases s₂.dout with
    | none => exact fun _ _ e => absurd e (absentValue_ne_next _ _)
    | some d => exact h.respond d
  | faulted => exact h.respond []

theorem exec (h : SameButHashState s₁ s₂) {i : Instr} (hi : i ≠ .finalize) :
    SameResponse (Machine.exec i s₁) (Machine.exec i s₂) := by
  cases i with
  | init v => exact (startComputation v).respond []
  | update p => exact h.execUpdate p
  | finalize => exact absurd rfl hi
  | readDigest => exact h.execReadDigest
  | status => exact h.respond []

theorem execute (h : SameButHashState s₁ s₂) {t : Transaction} (ht : decode t ≠ .ok .finalize) :
    SameResponse (Machine.execute t s₁) (Machine.execute t s₂) := by
  cases hd : decode t with
  | ok i =>
    rw [execute_ok hd, execute_ok hd]
    exact h.exec fun hi => ht (hi ▸ hd)
  | error er =>
    cases er with
    | illegalCommand =>
      rw [execute_illegal hd, execute_illegal hd]
      exact h.raiseFault _
    | payloadMismatch =>
      rw [execute_mismatch hd, execute_mismatch hd]
      exact h.raiseFault _

end SameButHashState

/-- Settles O41: every command but FINALIZE responds by what the two contexts share. The invariant is not needed. -/
theorem hashStateIsNotObservable : Obligations.HashStateIsNotObservable := by
  intro s₁ s₂ u₁ u₂ t rest _ _ hin₁ hin₂ ht hst hvar hcnt hdout hfcode hbuf e₁ e₂
  rw [step_command hin₁] at e₁
  rw [step_command hin₂] at e₂
  have hsame : SameButHashState s₁ s₂ := ⟨hst, hvar, hcnt, hdout, hfcode, hbuf⟩
  exact (hsame.withInput rest).execute ht u₁ u₂ e₁ e₂

end Sys2Proof.Machine
end

section
/-! The platform (20_memory.md R61, R67): a step and an event each replace one element of the list of instances, for an
event the one bound to its place. -/

namespace Sys2Proof.Machine

/-- Everything a platform step can do when it answers: nothing where there is no instance `k`, and otherwise the step of
instance `k`, whose state alone is replaced. -/
theorem platformStep_next_cases {k : Nat} {p q : Platform} (h : platformStep k p = .next q) :
    (p.cores[k]? = none ∧ q = p) ∨
      ∃ s s', p.cores[k]? = some s ∧ step s = .next s' ∧ q = { p with cores := p.cores.set k s' } := by
  unfold platformStep at h
  split at h
  next hk =>
    cases h
    exact .inl ⟨hk, rfl⟩
  next s hk =>
    split at h
    next s' hs =>
      cases h
      exact .inr ⟨s, s', hk, hs, rfl⟩
    next => cases h
    next => cases h

/-- A place bound once is the place of its own instance. -/
theorem idxOf_binding {p : Platform} {place k : Nat} (hp : p.binding.Nodup) (hk : p.binding[k]? = some place) :
    p.binding.idxOf place = k := by
  obtain ⟨hlt, rfl⟩ := List.getElem?_eq_some_iff.mp hk
  exact hp.idxOf_getElem k hlt

theorem platformSend_cores {p : Platform} {place k : Nat} (hp : p.binding.Nodup) (hk : p.binding[k]? = some place)
    (e : HostEvent) :
    (platformSend place e p).cores = p.cores.modify k fun s => s.withInput (s.input ++ [e]) := by
  rw [platformSend, idxOf_binding hp hk]

/-- Settles O55: a step and an event replace element `k` alone. -/
theorem instancesDoNotInteract : Obligations.InstancesDoNotInteract := by
  refine ⟨fun k p q h => ?_, fun place e p k hp hk => ?_⟩
  · obtain ⟨hnone, rfl⟩ | ⟨s, s', hs, hstep, rfl⟩ := platformStep_next_cases h
    · exact ⟨rfl, rfl, fun _ _ => rfl, by simp [hnone]⟩
    · have hlt : k < p.cores.length := (List.getElem?_eq_some_iff.mp hs).1
      refine ⟨List.length_set, rfl, fun j hj => List.getElem?_set_ne hj.symm, fun t ht => ?_⟩
      obtain rfl : s = t := Option.some.inj (hs.symm.trans ht)
      exact ⟨s', hstep, List.getElem?_set_self hlt⟩
  · rw [platformSend_cores hp hk]
    refine ⟨fun j hj => List.getElem?_modify_ne _ _ hj.symm, fun s hs => ?_⟩
    rw [List.getElem?_modify_eq, hs]
    rfl

end Sys2Proof.Machine
end

section
/-! Command words as numbers: the one number of each form of 30_encoding.md R79, and the list of the well-formed
words. -/

namespace Sys2Proof.Machine

/-- The word of each form of 30_encoding.md R79, as a number; ILLEGAL has none and gets the ill-formed word 0. -/
def formNumber : WordForm → Nat
  | .init v => 16 * variantNumber v + 1
  | .update n => 65536 * n.toNat + 2
  | .finalize => 3
  | .readDigest => 4
  | .status => 5
  | .illegal => 0

theorem word_toNat_eq_fields (cw : BitVec 32) :
    cw.toNat = 65536 * wordCount cw + 32 * wordRsvd cw + 16 * wordV cw + wordOp cw := by
  simp only [wordCount, wordRsvd, wordV, wordOp]
  omega

theorem wordOp_cases {cw : BitVec 32} (h : wordOk cw = true) :
    wordOp cw = 1 ∨ wordOp cw = 2 ∨ wordOp cw = 3 ∨ wordOp cw = 4 ∨ wordOp cw = 5 := by
  obtain ⟨⟨h1, h5⟩, -⟩ := (wordOk_iff_fields cw).1 h
  omega

theorem wordV_eq_variantNumber (cw : BitVec 32) :
    wordV cw = variantNumber (if wordV cw = 0 then .sha256 else .sha512) := by
  have : wordV cw < 2 := Nat.mod_lt _ (by decide)
  split
  · assumption
  · change wordV cw = 1
    omega

/-- A well-formed word is the number of the form it decodes to. -/
theorem toNat_eq_formNumber_decodeWord {cw : BitVec 32} (h : wordOk cw = true) :
    cw.toNat = formNumber (decodeWord cw) := by
  have hfields := word_toNat_eq_fields cw
  have hv := wordV_eq_variantNumber cw
  obtain ⟨-, hrsvd, hv0, hcount⟩ := (wordOk_iff_fields cw).1 h
  rw [decodeWord_of_wordOk h]
  obtain e | e | e | e | e := wordOp_cases h <;> simp [e, formNumber, countField_toNat] at hv0 hcount ⊢ <;> omega

theorem decodeWord_ne_illegal_iff (cw : BitVec 32) : decodeWord cw ≠ .illegal ↔ wordOk cw = true := by
  refine ⟨fun h => by_contra fun hok => h (decodeWord_of_not_wordOk hok), fun h => ?_⟩
  rw [decodeWord_of_wordOk h]
  split_ifs <;> exact nofun

/-- The number of a form other than ILLEGAL decodes to that form. -/
theorem decodeWord_of_toNat_eq_formNumber {cw : BitVec 32} {f : WordForm} (hf : f ≠ .illegal)
    (h : cw.toNat = formNumber f) : decodeWord cw = f := by
  cases f with
  | init v =>
    cases v with
    | sha256 => rw [show cw = 0x1#32 from BitVec.eq_of_toNat_eq h]; decide
    | sha512 => rw [show cw = 0x11#32 from BitVec.eq_of_toNat_eq h]; decide
  | update n =>
    have hn : cw.toNat = 65536 * n.toNat + 2 := h
    have hop : wordOp cw = 2 := by rw [wordOp]; omega
    have hcount : wordCount cw = n.toNat := by rw [wordCount]; omega
    have hok : wordOk cw = true := by
      simp only [wordOk_iff_fields, wordOp, wordRsvd, wordV]
      omega
    rw [decodeWord_of_wordOk hok]
    simp [hop, ← BitVec.toNat_inj, countField_toNat, hcount]
  | finalize => rw [show cw = 0x3#32 from BitVec.eq_of_toNat_eq h]; decide
  | readDigest => rw [show cw = 0x4#32 from BitVec.eq_of_toNat_eq h]; decide
  | status => rw [show cw = 0x5#32 from BitVec.eq_of_toNat_eq h]; decide
  | illegal => exact absurd rfl hf

theorem decodeWord_eq_iff (cw : BitVec 32) {f : WordForm} (hf : f ≠ .illegal) :
    decodeWord cw = f ↔ cw.toNat = formNumber f := by
  refine ⟨fun h => ?_, decodeWord_of_toNat_eq_formNumber hf⟩
  rw [← h]
  exact toNat_eq_formNumber_decodeWord ((decodeWord_ne_illegal_iff cw).1 (h ▸ hf))

/-- Settles O1: each clause is `decodeWord_eq_iff` at its form. -/
theorem wordsDecodeToTheirForm : Obligations.WordsDecodeToTheirForm := by
  intro cw
  simp only [← BitVec.toNat_inj]
  exact ⟨decodeWord_eq_iff cw nofun, decodeWord_eq_iff cw nofun, fun _ => decodeWord_eq_iff cw nofun,
    decodeWord_eq_iff cw nofun, decodeWord_eq_iff cw nofun, decodeWord_eq_iff cw nofun⟩

/-! ### The count of R79 -/

/-- The words of UPDATE, one for each COUNT. -/
def updateWords : List (BitVec 32) := (List.range 65536).map fun n => BitVec.ofNat 32 (65536 * n + 2)

theorem mem_updateWords {cw : BitVec 32} : cw ∈ updateWords ↔ wordOk cw = true ∧ wordOp cw = 2 := by
  simp only [updateWords, List.mem_map, List.mem_range, ← BitVec.toNat_inj, BitVec.toNat_ofNat]
  constructor
  · rintro ⟨n, hn, h⟩
    rw [Nat.mod_eq_of_lt (by omega)] at h
    simp only [wordOk_iff_fields, wordOp, wordRsvd, wordV]
    omega
  · rintro ⟨hok, hop⟩
    have hlt := cw.isLt
    have hfields := word_toNat_eq_fields cw
    obtain ⟨-, hrsvd, hv0, -⟩ := (wordOk_iff_fields cw).1 hok
    exact ⟨wordCount cw, by omega, by omega⟩

theorem updateWords_length : updateWords.length = 65536 := by
  rw [updateWords, List.length_map, List.length_range]

theorem nodup_updateWords : updateWords.Nodup := by
  refine List.Nodup.map_on (fun m hm n hn h => ?_) List.nodup_range
  rw [List.mem_range] at hm hn
  rw [← BitVec.toNat_inj, BitVec.toNat_ofNat, BitVec.toNat_ofNat] at h
  omega

/-- The words of the commands with no COUNT. -/
def fixedWords : List (BitVec 32) := [0x1, 0x11, 0x3, 0x4, 0x5]

theorem fixedWords_length : fixedWords.length = 5 := rfl

theorem mem_fixedWords {cw : BitVec 32} : cw ∈ fixedWords ↔ wordOk cw = true ∧ wordOp cw ≠ 2 := by
  simp only [fixedWords, List.mem_cons, List.not_mem_nil, or_false]
  constructor
  · rintro (rfl | rfl | rfl | rfl | rfl) <;> decide
  · rintro ⟨hok, hop⟩
    have hfields := word_toNat_eq_fields cw
    have hv : wordV cw < 2 := Nat.mod_lt _ (by decide)
    obtain ⟨⟨h1, h5⟩, hrsvd, hv0, hcount⟩ := (wordOk_iff_fields cw).1 hok
    simp only [← BitVec.toNat_inj, BitVec.reduceToNat]
    omega

/-- Settles O2: the words of OP 2, one for each COUNT, and the five others. -/
theorem wellFormedWordsNumber65541 : Obligations.WellFormedWordsNumber65541 := by
  refine ⟨fixedWords ++ updateWords, ?_, ?_, fun cw => ?_⟩
  · refine List.nodup_append'.2 ⟨by decide, nodup_updateWords, fun cw hfixed hupdate => ?_⟩
    exact (mem_fixedWords.1 hfixed).2 (mem_updateWords.1 hupdate).2
  · rw [List.length_append, fixedWords_length, updateWords_length]
  · rw [List.mem_append, mem_fixedWords, mem_updateWords, decodeWord_ne_illegal_iff, ← and_or_left]
    exact and_iff_left (ne_or_eq _ _)

end Sys2Proof.Machine
end

section
/-! The decoder of transactions: its two rejections (30_encoding.md R73, R80), the command it reads, and the encoder
as its inverse. -/

namespace Sys2Proof.Machine

/-- The command of a well-formed word with its payload, by OP as in EXECUTE of 44_commands.md R200. -/
def commandOf (t : Transaction) : Instr :=
  if wordOp t.word = 1 then .init (if wordV t.word = 0 then .sha256 else .sha512)
  else if wordOp t.word = 2 then .update t.payload
  else if wordOp t.word = 3 then .finalize
  else if wordOp t.word = 4 then .readDigest
  else .status

/-- All that decoding can answer: the check of the word, then that of the length, then the command. -/
theorem decode_eq (t : Transaction) :
    decode t =
      if wordOk t.word then
        if t.payload.length = expectedPayload t.word then .ok (commandOf t) else .error .payloadMismatch
      else .error .illegalCommand := by
  by_cases h : wordOk t.word
  · obtain e | e | e | e | e := wordOp_cases h <;>
      simp [decode, decodeWord_of_wordOk h, h, expectedLength_eq, commandOf, e]
  · simp [decode, decodeWord_of_not_wordOk h, h]

theorem decode_eq_illegalCommand_iff (t : Transaction) :
    decode t = .error .illegalCommand ↔ ¬ wordOk t.word := by
  rw [decode_eq]
  split_ifs <;> simp [*]

theorem decode_eq_payloadMismatch_iff (t : Transaction) :
    decode t = .error .payloadMismatch ↔ wordOk t.word ∧ t.payload.length ≠ expectedPayload t.word := by
  rw [decode_eq]
  split_ifs <;> simp [*]

theorem decode_eq_ok_iff (t : Transaction) (i : Instr) :
    decode t = .ok i ↔ wordOk t.word ∧ t.payload.length = expectedPayload t.word ∧ commandOf t = i := by
  rw [decode_eq]
  split_ifs <;> simp [*]

/-! ### Decoding an encoding -/

theorem encode_fits {i : Instr} (h : i.wellFormed = true) :
    wordOk (encode i).word = true ∧ expectedPayload (encode i).word = (encode i).payload.length := by
  cases i with
  | init v => exact Laws.Encodes.init v h
  | update p => exact Laws.Encodes.update p h
  | finalize => exact Laws.Encodes.finalize h
  | readDigest => exact Laws.Encodes.readDigest h
  | status => exact Laws.Encodes.status h

theorem encode_update_word_toNat (p : List Byte) :
    (encode (.update p)).word.toNat = 65536 * (p.length % 65536) + 2 := by
  simp [encode, packWord_toNat]

/-- The OP and V of an encoding select its command, well-formed or not. -/
theorem commandOf_encode (i : Instr) : commandOf (encode i) = i := by
  cases i with
  | init v => cases v <;> decide
  | update p =>
    have hop : wordOp (encode (.update p)).word = 2 := by
      rw [wordOp, encode_update_word_toNat]
      omega
    rw [commandOf, hop]
    rfl
  | finalize => decide
  | readDigest => decide
  | status => decide

/-- Settles O5: the encoding passes both checks, and its OP and V select the command. -/
theorem decodeOfEncodeIsTheCommand : Obligations.DecodeOfEncodeIsTheCommand := by
  intro i h
  obtain ⟨hword, hlength⟩ := encode_fits h
  exact (decode_eq_ok_iff _ _).2 ⟨hword, hlength.symm, commandOf_encode i⟩

/-! ### Encoding what was decoded -/

theorem bitOfVariant_toNat (v : Variant) : (bitOfVariant v).toNat = variantNumber v := by cases v <;> rfl

theorem commandOf_update {t : Transaction} (hop : wordOp t.word = 2) : commandOf t = .update t.payload := by
  simp [commandOf, hop]

theorem expectedPayload_update {cw : BitVec 32} (hok : wordOk cw = true) (hop : wordOp cw = 2) :
    expectedPayload cw = (countField cw).toNat := by
  rw [countField_toNat]
  exact if_pos ⟨hok, hop⟩

theorem expectedPayload_of_ne {cw : BitVec 32} (hop : wordOp cw ≠ 2) : expectedPayload cw = 0 :=
  if_neg fun h => hop h.2

/-- A well-formed word is the word its command is encoded to: both are the number of the form it decodes to. -/
theorem encode_commandOf_word {t : Transaction} (hok : wordOk t.word = true)
    (hlen : t.payload.length = expectedPayload t.word) : (encode (commandOf t)).word = t.word := by
  apply BitVec.eq_of_toNat_eq
  rw [toNat_eq_formNumber_decodeWord hok, decodeWord_of_wordOk hok]
  by_cases hop : wordOp t.word = 2
  · rw [commandOf_update hop, encode_update_word_toNat, hlen, expectedPayload_update hok hop,
      Nat.mod_eq_of_lt (countField t.word).isLt]
    simp [hop, formNumber]
  · obtain e | e | e | e | e := wordOp_cases hok <;>
      simp [commandOf, encode, packWord_toNat, bitOfVariant_toNat, formNumber, e] at hop ⊢

theorem commandOf_wellFormed {t : Transaction} (hok : wordOk t.word = true)
    (hlen : t.payload.length = expectedPayload t.word) : (commandOf t).wellFormed = true := by
  by_cases hop : wordOp t.word = 2
  · rw [commandOf_update hop]
    rw [expectedPayload_update hok hop] at hlen
    exact decide_eq_true (hlen ▸ Nat.le_of_lt_succ (countField t.word).isLt)
  · unfold commandOf
    split_ifs <;> rfl

theorem encode_commandOf_payload {t : Transaction} (hlen : t.payload.length = expectedPayload t.word) :
    (encode (commandOf t)).payload = t.payload := by
  by_cases hop : wordOp t.word = 2
  · rw [commandOf_update hop]
    rfl
  · rw [expectedPayload_of_ne hop, List.length_eq_zero_iff] at hlen
    rw [hlen, commandOf]
    split_ifs <;> rfl

/-- Settles O6: the command is read from the fields its encoding writes. -/
theorem encodeOfDecodeIsTheTransaction : Obligations.EncodeOfDecodeIsTheTransaction := by
  intro t i h
  obtain ⟨hword, hlength, rfl⟩ := (decode_eq_ok_iff t i).1 h
  exact ⟨commandOf_wellFormed hword hlength,
    congrArg₂ Transaction.mk (encode_commandOf_word hword hlength) (encode_commandOf_payload hlength)⟩

/-! ### The faults of the two checks -/

/-- What `raise` of a fault does to a step's state, in and outside Faulted (60_exceptions.md R302). -/
theorem raiseFault_of_faulted {c : FaultCode} {s : State} (h : s.st = .faulted) : raiseFault c s = respond [] s := by
  rw [raiseFault, s.enterFault_of_eq c h]

/-- Settles O3: the rejection of the word, and the step on it. -/
theorem illFormedWordRaisesIllegalCommand : Obligations.IllFormedWordRaisesIllegalCommand := by
  intro s t rest
  refine ⟨decode_eq_illegalCommand_iff t, fun hin hword => ?_⟩
  rw [step_command hin, execute_illegal ((decode_eq_illegalCommand_iff t).2 hword)]
  exact ⟨fun _ => rfl, fun hst => raiseFault_of_faulted hst⟩

/-- Settles O4: the expected length, the rejection of another length, and the step on it. -/
theorem wrongLengthRaisesPayloadMismatch : Obligations.WrongLengthRaisesPayloadMismatch := by
  intro s t rest
  rw [expectedLength_eq, expectedPayload]
  refine ⟨fun hword hop => if_pos ⟨hword, hop⟩, fun h => if_neg h, decode_eq_payloadMismatch_iff t,
    fun hin hword hlength => ?_⟩
  rw [step_command hin, execute_mismatch ((decode_eq_payloadMismatch_iff t).2 ⟨hword, hlength⟩)]
  exact ⟨fun _ => rfl, fun hst => raiseFault_of_faulted hst⟩

/-- Settles O7: by evaluation. -/
theorem exampleWordsDecode : Obligations.ExampleWordsDecode := by
  unfold Obligations.ExampleWordsDecode
  decide

end Sys2Proof.Machine
end

section
/-! The response of a command (30_encoding.md R74, R75). -/

namespace Sys2Proof.Machine

/-- R74 and R75 for a command. -/
theorem exec_response {i : Instr} {s u : State} (e : exec i s = .next u) :
    ∃ d, u.responses = s.responses ++ [⟨statusWord u, d⟩] ∧
      ((i = .finalize ∨ i = .readDigest) → u.st = .finalized → u.dout = some d) ∧
      (¬ ((i = .finalize ∨ i = .readDigest) ∧ u.st = .finalized) → d = []) := by
  rcases exec_next e with ⟨v, rfl, rfl⟩ | ⟨p, v, h, b, c, rfl, -, -, -, -, -, -, rfl⟩ |
    ⟨v, h, b, c, rfl, -, -, -, -, -, rfl⟩ | ⟨d, rfl, hst, hdout, rfl⟩ | ⟨rfl, rfl⟩ | ⟨-, -, hst, rfl⟩ |
    ⟨-, -, -, c, -, rfl⟩
  · exact ⟨[], rfl, by simp, fun _ => rfl⟩
  · exact ⟨[], rfl, by simp, fun _ => rfl⟩
  · exact ⟨_, rfl, fun _ _ => rfl, by simp⟩
  · exact ⟨d, rfl, fun _ _ => hdout, by simp [hst]⟩
  · exact ⟨[], rfl, by simp, fun _ => rfl⟩
  · exact ⟨[], rfl, by simp [hst], fun _ => rfl⟩
  · exact ⟨[], rfl, by simp, fun _ => rfl⟩

/-- A transaction that does not decode raises a fault. -/
theorem execute_error {t : Transaction} {er : DecodeError} (h : decode t = .error er) (s : State) :
    ∃ c, execute t s = raiseFault c s := by
  cases er with
  | illegalCommand => exact ⟨_, execute_illegal h s⟩
  | payloadMismatch => exact ⟨_, execute_mismatch h s⟩

/-- Settles O26: a command responds as `exec_response` says, and a rejected transaction with no data. -/
theorem eachCommandGetsOneResponse : Obligations.EachCommandGetsOneResponse := by
  intro s u t rest hin e
  rw [step_command hin] at e
  cases hd : decode t with
  | ok i =>
    rw [execute_ok hd] at e
    simpa using exec_response e
  | error er =>
    obtain ⟨c, hc⟩ := execute_error hd (s.withInput rest)
    obtain rfl := raiseFault_next (hc.symm.trans e)
    exact ⟨[], rfl, by simp, fun _ => rfl⟩

end Sys2Proof.Machine
end

section
/-! UPDATEN (30_encoding.md R83): the chunks are consecutive slices of the message. -/

namespace Sys2Proof.Machine

/-- Chunk `i` of a message cut every `k` bytes, the last one shorter. -/
def chunk (k : Nat) (m : List Byte) (i : Nat) : List Byte := slice m (i * k) (min m.length ((i + 1) * k))

theorem chunk_eq (k : Nat) (m : List Byte) (i : Nat) : chunk k m i = (m.drop (i * k)).take k := by
  rw [chunk, slice, List.take_eq_take_iff, List.length_drop, Nat.add_mul]
  omega

/-- The first `n` chunks, put together, are the first `n * k` bytes. -/
theorem flatten_chunks (k : Nat) (m : List Byte) (n : Nat) :
    ((List.range n).map (chunk k m)).flatten = m.take (n * k) := by
  induction n with
  | zero => simp
  | succ n ih =>
    rw [List.range_succ, List.map_append, List.flatten_append, ih, Nat.add_mul, List.take_add]
    simp [chunk_eq]

theorem chunk_length (k : Nat) (m : List Byte) (i : Nat) : (chunk k m i).length = min k (m.length - i * k) := by
  simp [chunk_eq]

theorem updateNChunks_eq (m : List Byte) :
    updateNChunks m = (List.range (max 1 ((m.length + 65534) / 65535))).map (chunk 65535 m) := by
  have hceil : m.length + Config.maxCount - 1 = m.length + 65534 := Nat.add_sub_assoc (by decide) _
  rw [updateNChunks, hceil]
  rfl

theorem updateNChunks_length (m : List Byte) : (updateNChunks m).length = max 1 ((m.length + 65534) / 65535) := by
  rw [updateNChunks_eq, List.length_map, List.length_range]

theorem updateNChunks_flatten (m : List Byte) : (updateNChunks m).flatten = m := by
  rw [updateNChunks_eq, flatten_chunks]
  exact List.take_of_length_le (by omega)

theorem updateNChunks_length_le {m c : List Byte} (hc : c ∈ updateNChunks m) : c.length ≤ 65535 := by
  rw [updateNChunks_eq, List.mem_map] at hc
  obtain ⟨i, -, rfl⟩ := hc
  rw [chunk_length]
  exact Nat.min_le_left _ _

theorem updateNChunks_getD_length {m : List Byte} {i : Nat} (hi : i + 1 < (updateNChunks m).length) :
    ((updateNChunks m).getD i []).length = 65535 := by
  have hlt : i < (updateNChunks m).length := Nat.lt_of_succ_lt hi
  rw [updateNChunks_length] at hi
  rw [List.getD_eq_getElem _ _ hlt]
  simp only [updateNChunks_eq, List.getElem_map, List.getElem_range, chunk_length]
  omega

/-- Settles O40: the chunks are consecutive slices of 65535 bytes, as many as the message needs. -/
theorem updateNSplitsTheMessage : Obligations.UpdateNSplitsTheMessage := fun m =>
  ⟨updateNChunks_flatten m, fun _ => updateNChunks_length_le, updateNChunks_length m,
    fun _ => updateNChunks_getD_length⟩

end Sys2Proof.Machine
end

section
/-! UPDATE lines (30_encoding.md R81): hexadecimal text is read back, and the line's parts are found. -/

namespace Sys2Proof.Machine

theorem hexDigit_hexChar {n : Nat} (h : n < 16) : hexDigit (hexChar n) = some n := by
  interval_cases n <;> decide

theorem hexChar_ne_quote {n : Nat} (h : n < 16) : hexChar n ≠ '"' := by
  interval_cases n <;> decide

theorem hexByte_hexChar (b : Byte) : hexByte (hexChar (b.toNat / 16)) (hexChar (b.toNat % 16)) = some b := by
  have := b.isLt
  rw [hexByte, hexDigit_hexChar (by omega), hexDigit_hexChar (by omega)]
  simp [Nat.div_add_mod]

theorem quotedHex_quote (rest : List Char) : quotedHex ('"' :: rest) = some ([], rest) := by
  cases rest <;> rfl

/-- The hexadecimal text of a byte string is read back, up to the closing quote. -/
theorem quotedHex_hexText (bs : List Byte) (rest : List Char) :
    quotedHex (hexText bs ++ '"' :: rest) = some (bs, rest) := by
  induction bs with
  | nil => exact quotedHex_quote rest
  | cons b bs ih =>
    have hne : hexChar (b.toNat / 16) ≠ '"' := hexChar_ne_quote (by have := b.isLt; omega)
    simp [hexText, quotedHex, hne, hexByte_hexChar, ih]

/-- A hexadecimal UPDATE line: the text after the string decides only whether the line ends. -/
theorem assembleLine_update_hex {mnemonic : List Char}
    (h : mnemonic = ['u', 'p', 'd', 'a', 't', 'e'] ∨ mnemonic = ['U', 'P', 'D', 'A', 'T', 'E'])
    (bs : List Byte) (rest : List Char) :
    assembleLine (mnemonic ++ [' ', 'x', '"'] ++ hexText bs ++ '"' :: rest) =
      if bs.length ≤ Config.maxCount then atLineEnd rest [encode (.update bs)] else .error .payloadTooLong := by
  have hq := quotedHex_hexText bs rest
  obtain rfl | rfl := h <;>
    simp [assembleLine, lineEnds, skipBlanks, isBlank, isTokenChar, bytesOperand, hq, List.takeWhile, List.dropWhile]

/-- Settles O59: both lines are hexadecimal UPDATE lines, and end after the string or with a comment. -/
theorem updateLinesAssemble : Obligations.UpdateLinesAssemble := fun bs =>
  ⟨fun h => (assembleLine_update_hex (.inl rfl) bs [' ', ';', 'c']).trans (if_pos h),
    fun h => (assembleLine_update_hex (.inr rfl) bs []).trans (if_neg (Nat.not_le.2 h))⟩

end Sys2Proof.Machine
end

section
/-! DECODE and EXPAND (42_schedule.md R150-R152): the sixteen words hold the bytes of the block in order, and every
schedule word is `nextScheduleWord` of the words before it. -/

namespace Sys2Proof.Machine

/-! ### DECODE -/

theorem wordBits_eq (v : Variant) : v.w = 8 * v.wb := by cases v <;> rfl

theorem blockBytes_eq_words (v : Variant) : blockBytes v = 16 * v.wb := by cases v <;> rfl

/-- A word of `wb` bytes, read big-endian, writes back the same bytes. -/
theorem toBE_ofNat_fromBE {v : Variant} {s : List Byte} (hs : s.length = v.wb) :
    toBE v.wb (BitVec.ofNat v.w (fromBE s)).toNat = s := by
  rw [BitVec.toNat_ofNat, wordBits_eq, ← hs, Nat.mod_eq_of_lt (fromBE_lt s), toBE_fromBE]

theorem decodeBlock_length (v : Variant) (blk : List Byte) : (decodeBlock v blk).length = 16 := by
  simp [decodeBlock]

/-- The bytes of word `i` are chunk `i` of the block. -/
theorem toBE_decodeBlock_word {v : Variant} {blk : List Byte} (hblk : blk.length = blockBytes v) {i : Nat}
    (hi : i < 16) :
    toBE v.wb (BitVec.ofNat v.w (fromBE (slice blk (i * v.wb) ((i + 1) * v.wb)))).toNat = chunk v.wb blk i := by
  rw [blockBytes_eq_words] at hblk
  have hend : (i + 1) * v.wb ≤ blk.length := hblk ▸ Nat.mul_le_mul_right _ hi
  have hsize : (i + 1) * v.wb = i * v.wb + v.wb := Nat.succ_mul _ _
  rw [toBE_ofNat_fromBE (by rw [slice_length]; omega), chunk, Nat.min_eq_right hend]

theorem decodeBlock_flatMap_toBE {v : Variant} {blk : List Byte} (hblk : blk.length = blockBytes v) :
    (decodeBlock v blk).flatMap (fun x => toBE v.wb x.toNat) = blk :=
  calc (decodeBlock v blk).flatMap (fun x => toBE v.wb x.toNat)
      = ((List.range 16).map (chunk v.wb blk)).flatten := by
        rw [decodeBlock, List.flatMap_def, List.map_map]
        exact congrArg _ (List.map_congr_left fun i hi => toBE_decodeBlock_word hblk (List.mem_range.1 hi))
    _ = blk.take (16 * v.wb) := flatten_chunks v.wb blk 16
    _ = blk := List.take_of_length_le (by rw [hblk, blockBytes_eq_words])

/-- Settles O45: the words write back the sixteen chunks of the block. -/
theorem blockBytesEnterTheirWords : Obligations.BlockBytesEnterTheirWords := fun v blk hblk =>
  ⟨decodeBlock_length v blk, decodeBlock_flatMap_toBE hblk⟩

/-! ### EXPAND -/

theorem rounds_eq (v : Variant) : rounds v = if v = .sha256 then 64 else 80 := by cases v <;> rfl

theorem rounds_ge (v : Variant) : 16 ≤ rounds v := by cases v <;> decide

/-- Extending puts words in front and keeps the earlier ones. -/
theorem extendSchedule_drop (v : Variant) (n k : Nat) (l : List (Word v)) :
    (extendSchedule v (n + k) l).drop k = extendSchedule v n l := by
  induction k with
  | zero => rfl
  | succ k ih => rw [← Nat.add_assoc, extendSchedule_succ, List.drop_succ_cons, ih]

section
variable {v : Variant} {m : List (Word v)} (hm : m.length = 16)
include hm

theorem expand_length : (expand v m).length = rounds v := by
  rw [expand, List.length_reverse, extendSchedule_length, List.length_reverse, hm, Nat.sub_add_cancel (rounds_ge v)]

/-- The word at index `k` after `n` extensions, the newest first, is `W[15 + n - k]` of the whole schedule. -/
theorem expand_getD {n k : Nat} (hn : 16 + n ≤ rounds v) (hk : k < 16 + n) :
    (expand v m).getD (15 + n - k) 0 = (extendSchedule v n m.reverse).getD k 0 := by
  have hsplit : rounds v - 16 = n + (rounds v - 16 - n) := by omega
  have hlen : (extendSchedule v (rounds v - 16) m.reverse).length = rounds v := by
    rw [← List.length_reverse]
    exact expand_length hm
  rw [← extendSchedule_drop v n (rounds v - 16 - n), ← hsplit, expand, List.getD_eq_getElem?_getD,
    List.getD_eq_getElem?_getD, List.getElem?_drop, List.getElem?_reverse (by omega), hlen]
  congr 2
  omega

theorem expand_recurrence {t : Nat} (ht : 16 ≤ t) (htR : t < rounds v) :
    (expand v m).getD t 0 =
      (expand v m).getD (t - 16) 0 + smallSigma0 v ((expand v m).getD (t - 15) 0) + (expand v m).getD (t - 7) 0 +
        smallSigma1 v ((expand v m).getD (t - 2) 0) := by
  obtain ⟨n, rfl⟩ := Nat.exists_eq_add_of_le ht
  have hback (k : Nat) (hk : k < 16) :
      (expand v m).getD (16 + n - (k + 1)) 0 = (extendSchedule v n m.reverse).getD k 0 := by
    rw [← expand_getD hm htR.le (by omega)]
    congr 1
    omega
  calc (expand v m).getD (16 + n) 0
      = (extendSchedule v (n + 1) m.reverse).getD 0 0 := by
        rw [← expand_getD hm htR (Nat.succ_pos _)]
        congr 1
        omega
    _ = nextScheduleWord v (extendSchedule v n m.reverse) := by rw [extendSchedule_succ, List.getD_cons_zero]
    _ = _ := by
        rw [nextScheduleWord, hback 15 (by decide), hback 14 (by decide), hback 6 (by decide), hback 1 (by decide)]

end

/-- Settles O51: word `t` is `nextScheduleWord` of the words after `t - 16` extensions, which the schedule keeps. -/
theorem scheduleFollowsTheRecurrence : Obligations.ScheduleFollowsTheRecurrence := fun v m hm => by
  rw [← rounds_eq]
  exact ⟨expand_length hm, fun _ => expand_recurrence hm⟩

end Sys2Proof.Machine
end

section
/-! PAD (43_padding.md R170-R177): the length field is the counter in `L` bytes, and the blocks are the pending bytes
behind which `zeroFill` zeros and the length field follow the marker. -/

namespace Sys2Proof.Machine

/-! ### The length field -/

/-- The leading `m` bytes of `BE_(m+n)` hold what the last `n` leave over. -/
theorem toBE_add (m n v : Nat) : toBE (m + n) v = toBE m (v / 2 ^ (8 * n)) ++ toBE n v := by
  induction n generalizing v with
  | zero => simp [toBE]
  | succ n ih =>
    have hdiv : v / 256 / 2 ^ (8 * n) = v / 2 ^ (8 * (n + 1)) := by
      rw [Nat.div_div_eq_div_mul, show 256 * 2 ^ (8 * n) = 2 ^ (8 * (n + 1)) by ring]
    rw [← Nat.add_assoc, toBE_succ, ih, toBE_succ n v, hdiv, List.append_assoc]

theorem toBE_zero_right (n : Nat) : toBE n 0 = zeros n := by
  induction n with
  | zero => rfl
  | succ n ih => rw [toBE_succ, Nat.zero_div, ih, zeros, zeros, List.replicate_succ']

@[simp] theorem lengthField_length (v : Variant) (c : BitVec 64) : (lengthField v c).length = lengthBytes v :=
  toBE_length _ _

theorem lengthField_sha256 (c : BitVec 64) : lengthField .sha256 c = toBE 8 c.toNat := rfl

/-- R172: the counter has 64 bits, so the upper 8 of the 16 bytes are zero. -/
theorem lengthField_sha512 (c : BitVec 64) : lengthField .sha512 c = zeros 8 ++ toBE 8 c.toNat := by
  have hupper : c.toNat / 2 ^ (8 * 8) = 0 := Nat.div_eq_of_lt c.isLt
  calc lengthField .sha512 c
      = toBE 8 (c.toNat / 2 ^ (8 * 8)) ++ toBE 8 c.toNat := toBE_add 8 8 c.toNat
    _ = zeros 8 ++ toBE 8 c.toNat := by rw [hupper, toBE_zero_right]

theorem lengthBytes_ge (v : Variant) : 8 ≤ lengthBytes v := by cases v <;> decide

theorem fromBE_lengthField (v : Variant) (c : BitVec 64) : fromBE (lengthField v c) = c.toNat :=
  fromBE_toBE_of_lt (c.isLt.trans_le (Nat.pow_le_pow_right (by decide) (Nat.mul_le_mul_left 8 (lengthBytes_ge v))))

/-- Settles O43: the field is `BE_L` of the counter, whose `L - 8` leading bytes are zero. -/
theorem lengthFieldIsTheBigEndianCount : Obligations.LengthFieldIsTheBigEndianCount := fun c =>
  ⟨lengthField_sha256 c, lengthField_sha512 c, fun v => ⟨lengthField_length v c, fromBE_lengthField v c⟩⟩

/-! ### The blocks -/

theorem zeros_add (m n : Nat) : zeros (m + n) = zeros m ++ zeros n :=
  List.replicate_add m n _

theorem zeroFill_lt (v : Variant) (n : Nat) : zeroFill v n < blockBytes v := Nat.mod_lt _ (blockBytes_pos v)

section
variable {v : Variant} {buf : List Byte} (c : BitVec 64)

theorem pad_of_lt (h : buf.length < blockBytes v - lengthBytes v) :
    pad v buf c = [buf ++ [marker] ++ zeros (blockBytes v - lengthBytes v - buf.length - 1) ++ lengthField v c] :=
  if_pos h

theorem pad_of_not_lt (h : ¬ buf.length < blockBytes v - lengthBytes v) :
    pad v buf c = [buf ++ [marker] ++ zeros (blockBytes v - buf.length - 1),
      zeros (blockBytes v - lengthBytes v) ++ lengthField v c] :=
  if_neg h

/-- The counts of R173 and R175. -/
theorem pad_length : (pad v buf c).length = if buf.length < blockBytes v - lengthBytes v then 1 else 2 := by
  split
  next h => rw [pad_of_lt c h, List.length_singleton]
  next h => rw [pad_of_not_lt c h, List.length_cons, List.length_singleton]

variable (hbuf : buf.length < blockBytes v)
include hbuf

theorem length_of_mem_pad {b : List Byte} (hb : b ∈ pad v buf c) : b.length = blockBytes v := by
  have hL := lengthBytes_lt_blockBytes v
  by_cases h : buf.length < blockBytes v - lengthBytes v
  · rw [pad_of_lt c h, List.mem_singleton] at hb
    simp only [hb, List.length_append, List.length_singleton, zeros_length, lengthField_length]
    omega
  · rw [pad_of_not_lt c h, List.mem_pair] at hb
    obtain rfl | rfl := hb
    · simp only [List.length_append, List.length_singleton, zeros_length]
      omega
    · simp only [List.length_append, zeros_length, lengthField_length]
      omega

/-- The blocks put together: the zeros run to the length field, in this block or through the next one. -/
theorem pad_flatten :
    (pad v buf c).flatten = buf ++ [marker] ++ zeros (zeroFill v buf.length) ++ lengthField v c := by
  have hmod : buf.length % blockBytes v = buf.length := Nat.mod_eq_of_lt hbuf
  by_cases h : buf.length < blockBytes v - lengthBytes v
  · rw [pad_of_lt c h, zeroFill_of_lt (hmod.symm ▸ h), hmod, List.flatten_singleton]
  · rw [pad_of_not_lt c h, zeroFill_of_le (hmod.symm ▸ h), hmod, zeros_add]
    simp

end

/-- Settles O42: the zeros between marker and length field are the `zeroFill` of the pending bytes. -/
theorem paddedBlocksAreWhole : Obligations.PaddedBlocksAreWhole := by
  intro v buf c hbuf
  have hz := zeroFill_lt v buf.length
  exact ⟨fun b => length_of_mem_pad c hbuf, pad_length c, zeroFill v buf.length, pad_flatten c hbuf,
    by omega, by omega⟩

end Sys2Proof.Machine
end

section
/-! The commands one case at a time (44_commands.md R200-R207): what each answers in each state of the core, its response
with the status word as a number, and EXECUTE over them. -/

namespace Sys2Proof.Machine

/-! ### Each command in each state -/

section
variable {s : State}

/-- R304 for the commands that Faulted ignores. -/
theorem exec_of_faulted (h : s.st = .faulted) {i : Instr} (hinit : ∀ v, i ≠ .init v) (hstatus : i ≠ .status) :
    exec i s = respond [] s := by
  cases i with
  | init v => exact absurd rfl (hinit v)
  | update p => simp [exec, execUpdate, h, ignoreCommand]
  | finalize => simp [exec, execFinalize, h, ignoreCommand]
  | readDigest => simp [exec, execReadDigest, h, ignoreCommand]
  | status => exact absurd rfl hstatus

theorem exec_update_of_idle (p : List Byte) (h : s.st = .idle) :
    exec (.update p) s = raiseFault .notInitialised s := by simp [exec, execUpdate, h]

theorem exec_update_of_finalized (p : List Byte) (h : s.st = .finalized) :
    exec (.update p) s = raiseFault .useAfterFinalize s := by simp [exec, execUpdate, h]

theorem exec_update_of_open (p : List Byte) (h : Open s) : exec (.update p) s = updateComputation p s := by
  rcases h with h | h <;> simp [exec, execUpdate, h]

theorem exec_finalize_of_idle (h : s.st = .idle) : exec .finalize s = raiseFault .notInitialised s := by
  simp [exec, execFinalize, h]

theorem exec_finalize_of_finalized (h : s.st = .finalized) : exec .finalize s = raiseFault .useAfterFinalize s := by
  simp [exec, execFinalize, h]

theorem exec_finalize_of_open (h : Open s) : exec .finalize s = finalizeComputation s := by
  rcases h with h | h <;> simp [exec, execFinalize, h]

theorem exec_readDigest_of_finalized {d : List Byte} (h : s.st = .finalized) (hd : s.dout = some d) :
    exec .readDigest s = respond d s := by simp [exec, execReadDigest, h, hd]

theorem exec_readDigest_unavailable (h : s.st = .idle ∨ s.st = .fresh ∨ s.st = .accepting) :
    exec .readDigest s = raiseFault .digestUnavailable s := by
  rcases h with h | h | h <;> simp [exec, execReadDigest, h]

/-! ### UPDATE and FINALIZE on the values of an open computation -/

variable {v : Variant} {h : Words8 v.w} {buf : List Byte} {c : BitVec 64} (ho : Open s) (hv : s.var = some v)
  (hh : s.H = some (accumulatorOf v h)) (hb : s.buf = some buf) (hc : s.cnt = some c)
include ho hv hh hb hc

theorem exec_update_of_overflow {p : List Byte} (hp : c.toNat + 8 * p.length > Config.counterMax) :
    exec (.update p) s = raiseFault .lengthOverflow s := by
  rw [exec_update_of_open p ho, updateComputation, withComputation_eq hv hh hb hc, if_pos hp]

theorem exec_update_of_fits {p : List Byte} (hp : c.toNat + 8 * p.length ≤ Config.counterMax) :
    exec (.update p) s =
      respond [] (s.putAbsorbed (accumulatorOf v (absorb v h buf p).1) (absorb v h buf p).2
        (c + BitVec.ofNat 64 (8 * p.length))) := by
  rw [exec_update_of_open p ho, updateComputation, withComputation_eq hv hh hb hc, if_neg (Nat.not_lt.2 hp)]

theorem exec_finalize_of_values :
    exec .finalize s =
      respond (serialize v (processBlocks v h (pad v buf c)))
        (s.putDigest (accumulatorOf v (processBlocks v h (pad v buf c)))
          (serialize v (processBlocks v h (pad v buf c)))) := by
  rw [exec_finalize_of_open ho, finalizeComputation, withComputation_eq hv hh hb hc]

end

/-! ### The response with its status word as a number -/

theorem blockBytes_le (v : Variant) : blockBytes v ≤ 128 := by cases v <;> decide

/-- R33 where the context holds a variant and less than a block. -/
theorem statusWord_eq_statusOf {s : State} {v : Variant} {b : List Byte} (hv : s.var = some v) (hb : s.buf = some b)
    (hlen : b.length < blockBytes v) :
    statusWord s = statusOf (stateNumber s.st) (variantNumber v) (faultNumber s.fcode) b.length := by
  have hbuf : (bufferStatus s.buf).toNat = b.length := by
    have := blockBytes_le v
    rw [hb]
    exact bufferStatus_toNat (o := some b) (show b.length ≤ 127 by omega)
  rw [statusOf, ← stateCode_toNat, ← variantStatus_some, ← hv, ← faultCodeBits_toNat, ← hbuf, ← statusWord_toNat,
    BitVec.ofNat_toNat, BitVec.setWidth_eq]

theorem respond_eq_statusOf (d : List Byte) {s : State} {v : Variant} {b : List Byte} (hv : s.var = some v)
    (hb : s.buf = some b) (hlen : b.length < blockBytes v) :
    respond d s = .next { s with
      responses :=
        s.responses ++ [⟨statusOf (stateNumber s.st) (variantNumber v) (faultNumber s.fcode) b.length, d⟩] } := by
  rw [respond_eq, State.withResponse, statusWord_eq_statusOf hv hb hlen]

/-! ### ABSORB over the blocks of its bytes -/

theorem blocks_eq_chunks (v : Variant) (m : List Byte) :
    blocks v m = (List.range (m.length / blockBytes v)).map (chunk (blockBytes v) m) := by
  refine List.map_congr_left fun j _ => ?_
  rw [chunk_eq, slice, Nat.add_mul, Nat.one_mul, Nat.add_sub_cancel_left]

theorem blocks_flatten_append_tailBytes (v : Variant) (m : List Byte) : (blocks v m).flatten ++ tailBytes v m = m := by
  rw [blocks_eq_chunks, flatten_chunks, tailBytes, List.take_append_drop]

theorem length_of_mem_blocks {v : Variant} {m b : List Byte} (h : b ∈ blocks v m) : b.length = blockBytes v := by
  rw [blocks_eq_chunks, List.mem_map] at h
  obtain ⟨j, hj, rfl⟩ := h
  have hend : (j + 1) * blockBytes v ≤ m.length :=
    (Nat.mul_le_mul_right _ (List.mem_range.1 hj)).trans (Nat.div_mul_le_self _ _)
  rw [chunk_length]
  rw [Nat.add_mul] at hend
  omega

/-- The byte loop from any accumulator. The last byte either completes a block or joins the rest. -/
theorem absorb_eq_processBlocks (v : Variant) (h : Words8 v.w) {buf : List Byte} (p : List Byte)
    (hbuf : buf.length < blockBytes v) :
    absorb v h buf p = (processBlocks v h (blocks v (buf ++ p)), tailBytes v (buf ++ p)) := by
  induction p using List.reverseRecOn with
  | nil => simp [blocks_short hbuf, tailBytes_short hbuf, processBlocks]
  | append_singleton p x ih =>
    rw [absorb_append, ih, ← List.append_assoc]
    by_cases e : (tailBytes v (buf ++ p) ++ [x]).length = blockBytes v
    · obtain ⟨hblocks, htail⟩ := blocks_snoc_of_eq e
      rw [absorb_cons_of_eq e, absorb_nil, hblocks, htail, processBlocks_append]
      rfl
    · obtain ⟨hblocks, htail⟩ := blocks_snoc_of_ne e
      rw [absorb_cons_of_ne e, absorb_nil, hblocks, htail]

theorem absorb_snd_length (v : Variant) (h : Words8 v.w) {buf : List Byte} (p : List Byte)
    (hbuf : buf.length < blockBytes v) :
    (absorb v h buf p).2.length = (buf.length + p.length) % blockBytes v := by
  rw [absorb_eq_processBlocks v h p hbuf, tailBytes_length, List.length_append]

/-- Settles O13: the loop is `absorb_eq_processBlocks`, and the blocks are consecutive slices of the bytes. -/
theorem absorbCompressesEachCompleteBlock : Obligations.AbsorbCompressesEachCompleteBlock := by
  intro v h buf p hbuf
  exact ⟨absorb_eq_processBlocks v h p hbuf, by rw [blocks_length, List.length_append],
    fun b => length_of_mem_blocks, blocks_flatten_append_tailBytes v _, absorb_snd_length v h p hbuf⟩

/-! ### The commands as the spec states them -/

/-- COUNT is the payload length modulo 2^16, as is the number in 32 bits. -/
theorem encode_update_eq (p : List Byte) :
    encode (.update p) = ⟨BitVec.ofNat 32 (65536 * p.length + 2), p⟩ := by
  have hword : (encode (.update p)).word = BitVec.ofNat 32 (65536 * p.length + 2) := by
    apply BitVec.eq_of_toNat_eq
    rw [encode_update_word_toNat, BitVec.toNat_ofNat]
    omega
  exact congrArg (Transaction.mk · p) hword

/-- Settles O11: the response is that of the state `startComputation` gives. -/
theorem initStartsAComputation : Obligations.InitStartsAComputation := by
  intro v s
  refine ⟨by cases v <;> decide, ?_⟩
  exact respond_eq_statusOf [] (s := s.startComputation v) rfl rfl (blockBytes_pos v)

/-- Settles O12: UPDATE in each state, and on both sides of the counter's bound in an open computation. -/
theorem updateAbsorbsThePayloadOrFaults : Obligations.UpdateAbsorbsThePayloadOrFaults := by
  intro p s
  refine ⟨fun hp => ?_, fun hst => exec_of_faulted hst nofun nofun, exec_update_of_idle p,
    exec_update_of_finalized p, fun v h buf c ho hf hv hh hb hbuf hc => ?_⟩
  · rw [← encode_update_eq]
    exact decodeOfEncodeIsTheCommand _ (decide_eq_true hp)
  · refine ⟨exec_update_of_overflow ho hv hh hb hc, fun hp => ?_⟩
    have hrest : (absorb v h buf p).2.length < blockBytes v := by
      rw [absorb_snd_length v h p hbuf]
      exact Nat.mod_lt _ (blockBytes_pos v)
    rw [exec_update_of_fits ho hv hh hb hc hp, respond_eq_statusOf [] (s.putAbsorbed_var .. |>.trans hv) rfl hrest,
      BitVec.ofNat_add, BitVec.ofNat_toNat, BitVec.setWidth_eq, State.putAbsorbed_fcode, hf]
    rfl

/-- Settles O14: FINALIZE in each state, and its response with an empty buffer. -/
theorem finalizeProducesTheDigestOrFaults : Obligations.FinalizeProducesTheDigestOrFaults := by
  intro s
  refine ⟨by decide, fun hst => exec_of_faulted hst nofun nofun, exec_finalize_of_idle, exec_finalize_of_finalized,
    fun v h buf c ho hf hv hh hb _ hc => ?_⟩
  rw [exec_finalize_of_values ho hv hh hb hc,
    respond_eq_statusOf _ (s.putDigest_var .. |>.trans hv) rfl (blockBytes_pos v), State.putDigest_fcode, hf]
  rfl

/-- Settles O15: READ_DIGEST in each state. -/
theorem readDigestReturnsTheDigestOrFaults : Obligations.ReadDigestReturnsTheDigestOrFaults := by
  intro s
  exact ⟨by decide, fun d => exec_readDigest_of_finalized, exec_readDigest_unavailable,
    fun hst => exec_of_faulted hst nofun nofun⟩

/-- Settles O16: STATUS responds in every state. -/
theorem statusReturnsTheStatusWord : Obligations.StatusReturnsTheStatusWord := fun s => ⟨by decide, respond_eq [] s⟩

/-! ### EXECUTE -/

theorem execute_eq (t : Transaction) (s : State) :
    execute t s =
      if ¬ wordOk t.word then raiseFault .illegalCommand s
      else if t.payload.length ≠ expectedPayload t.word then raiseFault .payloadMismatch s
      else exec (commandOf t) s := by
  by_cases hok : wordOk t.word
  · by_cases hlen : t.payload.length = expectedPayload t.word
    · simp [execute, decode_eq, hok, hlen]
    · simp [execute, decode_eq, hok, hlen]
  · simp [execute, decode_eq, hok]

/-- INIT and STATUS are read only from their OPs, which expect no payload. -/
theorem commandOf_ne_of_not_runsInFaulted {t : Transaction} (hok : wordOk t.word = true)
    (hlen : t.payload.length = expectedPayload t.word) (hr : ¬ RunsInFaulted t) :
    (∀ v, commandOf t ≠ .init v) ∧ commandOf t ≠ .status := by
  have hruns : wordOp t.word ≠ 2 → ¬ (wordOp t.word = 1 ∨ wordOp t.word = 5) := fun hne hop =>
    hr ⟨hok, hop, hlen.trans (expectedPayload_of_ne hne)⟩
  obtain e | e | e | e | e := wordOp_cases hok <;> simp [commandOf, e] at hruns ⊢

/-- R304: in Faulted every transaction but an INIT or STATUS with an empty payload is ignored. -/
theorem execute_of_faulted {t : Transaction} {s : State} (hst : s.st = .faulted) (hr : ¬ RunsInFaulted t) :
    execute t s = respond [] s := by
  rw [execute_eq]
  split
  next => exact raiseFault_of_faulted hst
  next hok =>
    split
    next => exact raiseFault_of_faulted hst
    next hlen =>
      obtain ⟨hinit, hstatus⟩ := commandOf_ne_of_not_runsInFaulted (not_not.1 hok) (not_not.1 hlen) hr
      exact exec_of_faulted hst hinit hstatus

/-- Settles O9: what Faulted ignores, then the two checks, then the command that OP selects. -/
theorem stepFollowsExecutePseudocode : Obligations.StepFollowsExecutePseudocode := by
  intro s t rest hin
  rw [step_command hin]
  by_cases hignored : s.st = .faulted ∧ ¬ RunsInFaulted t
  · obtain ⟨hst, hr⟩ := hignored
    exact (execute_of_faulted (s := s.withInput rest) hst hr).trans (if_pos ⟨hst, hr⟩).symm
  · refine Eq.trans ?_ (if_neg hignored).symm
    -- EXECUTE selects the meaning by OP; `commandOf` selects the command by OP, and `exec` its meaning.
    rw [execute_eq, commandOf]
    simp only [apply_ite (exec · (s.withInput rest))]
    rfl

/-! ### No step stops -/

theorem withComputation_exists_next {s : State} (hi : Inv s) (ho : Open s)
    {k : (v : Variant) → Words8 v.w → List Byte → BitVec 64 → Outcome} (hk : ∀ v h b c, ∃ u, k v h b c = .next u) :
    ∃ u, withComputation s k = .next u := by
  obtain ⟨v, m, hv, hh, hb, hc, -⟩ := hi.computing_of_open ho
  rw [withComputation_eq hv hh hb hc]
  exact hk v _ _ _

theorem updateComputation_exists_next {s : State} (p : List Byte) (hi : Inv s) (ho : Open s) :
    ∃ u, updateComputation p s = .next u :=
  withComputation_exists_next hi ho fun v h b c => by
    split
    · exact ⟨_, raiseFault_eq _ _⟩
    · exact ⟨_, respond_eq _ _⟩

theorem finalizeComputation_exists_next {s : State} (hi : Inv s) (ho : Open s) :
    ∃ u, finalizeComputation s = .next u :=
  withComputation_exists_next hi ho fun _ _ _ _ => ⟨_, respond_eq _ _⟩

/-- R209: under the invariant the values a command reads are present. -/
theorem Inv.exec_exists_next {s : State} (hi : Inv s) (i : Instr) : ∃ u, Machine.exec i s = .next u := by
  cases i with
  | init v => exact ⟨_, respond_eq _ _⟩
  | status => exact ⟨_, respond_eq _ _⟩
  | update p =>
    cases hst : s.st with
    | idle => exact ⟨_, exec_update_of_idle p hst⟩
    | finalized => exact ⟨_, exec_update_of_finalized p hst⟩
    | faulted => exact ⟨_, exec_of_faulted hst nofun nofun⟩
    | fresh => rw [exec_update_of_open p (.inl hst)]; exact updateComputation_exists_next p hi (.inl hst)
    | accepting => rw [exec_update_of_open p (.inr hst)]; exact updateComputation_exists_next p hi (.inr hst)
  | finalize =>
    cases hst : s.st with
    | idle => exact ⟨_, exec_finalize_of_idle hst⟩
    | finalized => exact ⟨_, exec_finalize_of_finalized hst⟩
    | faulted => exact ⟨_, exec_of_faulted hst nofun nofun⟩
    | fresh => rw [exec_finalize_of_open (.inl hst)]; exact finalizeComputation_exists_next hi (.inl hst)
    | accepting => rw [exec_finalize_of_open (.inr hst)]; exact finalizeComputation_exists_next hi (.inr hst)
  | readDigest =>
    cases hst : s.st with
    | idle => exact ⟨_, exec_readDigest_unavailable (.inl hst)⟩
    | fresh => exact ⟨_, exec_readDigest_unavailable (.inr (.inl hst))⟩
    | accepting => exact ⟨_, exec_readDigest_unavailable (.inr (.inr hst))⟩
    | faulted => exact ⟨_, exec_of_faulted hst nofun nofun⟩
    | finalized =>
      obtain ⟨-, hfit⟩ := hi.fits (by simp [hst])
      rw [hst] at hfit
      obtain ⟨v, m, -, -, -, -, -, hdout⟩ := hfit
      exact ⟨_, exec_readDigest_of_finalized hst hdout⟩

/-- Settles O34: a reset, a rejected transaction and a command each give a next state. -/
theorem noStepStopsUnderTheInvariant : Obligations.NoStepStopsUnderTheInvariant := by
  intro s hi
  cases hin : s.input with
  | nil => exact ⟨s, step_nil hin⟩
  | cons e rest =>
    rw [step_cons hin]
    cases e with
    | reset => exact ⟨_, rfl⟩
    | resetDuring t => exact ⟨_, rfl⟩
    | command t =>
      change ∃ u, execute t (s.withInput rest) = .next u
      cases hd : decode t with
      | ok i => rw [execute_ok hd]; exact (hi.withInput rest).exec_exists_next i
      | error er =>
        obtain ⟨c, hc⟩ := execute_error hd (s.withInput rest)
        exact ⟨_, hc⟩

end Sys2Proof.Machine
end

section
/-! Runs of a computation in any chunks (44_commands.md R208): UPDATE takes the computation over `m` to the one over
`m ++ p`, FINALIZE ends it, and a run of the machine goes through the commands sent to it one by one. -/

namespace Sys2Proof.Machine

theorem Computing.withInput {v : Variant} {m : List Byte} {s : State} (h : Computing v m s) (l : List HostEvent) :
    Computing v m (s.withInput l) := h

/-- INIT opens the computation over the empty message, in every state. -/
theorem exec_init_computing (v : Variant) (s : State) :
    ∃ u, exec (.init v) s = .next u ∧ u.st = .fresh ∧ Computing v [] u ∧ u.fcode = .noFault ∧ u.input = s.input :=
  ⟨_, respond_eq _ _, rfl, computing_startComputation v s, rfl, rfl⟩

/-- UPDATE continues the computation, without a fault. -/
theorem Computing.exec_update {v : Variant} {m p : List Byte} {s : State} (hs : Computing v m s) (ho : Open s)
    (hlen : 8 * (m.length + p.length) ≤ Config.counterMax) :
    ∃ u, exec (.update p) s = .next u ∧ u.st = .accepting ∧ Computing v (m ++ p) u ∧ u.fcode = s.fcode ∧
      u.input = s.input := by
  have ⟨hv, hh, hb, hc, hm, _⟩ := hs
  have hp : (BitVec.ofNat 64 (8 * m.length)).toNat + 8 * p.length ≤ Config.counterMax := by
    rw [count_toNat hm]
    omega
  exact ⟨_, exec_update_of_fits ho hv hh hb hc hp, rfl, hs.putAbsorbed hlen, rfl, rfl⟩

/-- FINALIZE ends the computation and responds its digest. -/
theorem Computing.exec_finalize {v : Variant} {m : List Byte} {s : State} (hs : Computing v m s) (ho : Open s) :
    ∃ u, exec .finalize s = .next u ∧ u.st = .finalized ∧ Finished v m u ∧ u.fcode = s.fcode ∧ u.input = s.input ∧
      u.responses =
        s.responses ++ [⟨statusOf 3 (variantNumber v) (faultNumber s.fcode) 0, messageDigest v m⟩] := by
  have ⟨hv, hh, hb, hc, hm, _⟩ := hs
  refine ⟨_, exec_finalize_of_values ho hv hh hb hc, rfl, hs.putDigest, rfl, rfl, ?_⟩
  rw [State.withResponse, statusWord_eq_statusOf (s.putDigest_var .. |>.trans hv) rfl (blockBytes_pos v),
    processBlocks_pad hm]
  rfl

theorem run_succ_of_step {M : Host.Core} {s u : M.State} (h : M.step s = .next u) (k : Nat) :
    M.run (k + 1) s = M.run k u := by rw [Host.Core.run, h]

/-- A run receives the command sent first and goes on from the state it leaves. -/
theorem run_send_cons {i : Instr} {is : List Instr} {rest : List HostEvent} {s u : State} (hi : i.wellFormed = true)
    (hin : s.input = send (i :: is) ++ rest) (he : exec i (s.withInput (send is ++ rest)) = .next u) (k : Nat) :
    Host.Core.run Sys2Proof.core (k + 1) s = Host.Core.run Sys2Proof.core k u := by
  refine run_succ_of_step (M := Sys2Proof.core) ?_ k
  change step s = _
  rw [step_command hin, execute_ok (decodeOfEncodeIsTheCommand i hi)]
  exact he

/-- The machine has answered the digest of `m`, with no fault and `rest` still to receive. -/
def DigestAnswered (v : Variant) (m : List Byte) (rest : List HostEvent) (u : State) : Prop :=
  u.st = .finalized ∧ u.fcode = .noFault ∧ u.dout = some (messageDigest v m) ∧ u.input = rest ∧
    u.responses.getLast? = some ⟨statusOf 3 (variantNumber v) 0 0, messageDigest v m⟩

/-- From an open computation over `m`, any UPDATEs and FINALIZE answer the digest of `m` and their payloads. -/
theorem run_updates_finalize {v : Variant} {rest : List HostEvent} (chunks : List (List Byte))
    (hsize : ∀ c ∈ chunks, c.length ≤ 65535) {m : List Byte} {s : State} (hs : Computing v m s) (ho : Open s)
    (hf : s.fcode = .noFault) (hlen : 8 * (m.length + chunks.flatten.length) ≤ Config.counterMax)
    (hin : s.input = send (chunks.map .update ++ [.finalize]) ++ rest) :
    ∃ u, Host.Core.run Sys2Proof.core (chunks.length + 1) s = .next u ∧
      DigestAnswered v (m ++ chunks.flatten) rest u := by
  induction chunks generalizing m s with
  | nil =>
    obtain ⟨u, he, hst, ⟨-, -, -, -, -, hdout⟩, hfcode, hinput, hresp⟩ := (hs.withInput rest).exec_finalize ho
    refine ⟨u, run_send_cons rfl hin he 0, hst, hfcode.trans hf, by simpa using hdout, hinput, ?_⟩
    simp [hresp, hf, faultNumber]
  | cons p chunks ih =>
    rw [List.flatten_cons, List.length_append] at hlen
    obtain ⟨u, he, hst, hu, hfcode, hinput⟩ :=
      (hs.withInput (send (chunks.map .update ++ [.finalize]) ++ rest)).exec_update (p := p) ho (by omega)
    obtain ⟨hp, hsize⟩ := List.forall_mem_cons.1 hsize
    obtain ⟨w, hrun, hw⟩ :=
      ih hsize hu (.inr hst) (hfcode.trans hf) (by rw [List.length_append]; omega) hinput
    refine ⟨w, (run_send_cons (i := .update p) (decide_eq_true hp) hin he _).trans hrun, ?_⟩
    rwa [List.flatten_cons, ← List.append_assoc]

/-- Settles O38: INIT opens the computation over the empty message, and `run_updates_finalize` ends it. -/
theorem digestIsTheSameForEveryChunking : Obligations.DigestIsTheSameForEveryChunking := by
  intro v chunks s rest hsize hlen
  obtain ⟨t, he, hst, ht, hf, hinput⟩ :=
    exec_init_computing v (s.withInput (send (chunks.map .update ++ [.finalize]) ++ rest))
  obtain ⟨u, hrun, hu⟩ :=
    run_updates_finalize chunks hsize ht (.inl hst) hf (by rwa [List.length_nil, Nat.zero_add]) hinput
  have hinit := run_send_cons (s := s.withInput (send (hashChunks v chunks) ++ rest)) rfl rfl he (chunks.length + 1)
  exact ⟨u, hinit.trans hrun, hu⟩

end Sys2Proof.Machine
end

section
/-! The digest of a message and the one-shot pseudo-command (45_digest_and_oneshot.md R250-R256): SERIALIZE cut into
its words, and CALC as the run over the chunks of UPDATEN. -/

namespace Sys2Proof.Machine

/-! ### SERIALIZE -/

/-- Element `k` of a concatenation of pieces of `n` elements is element `k mod n` of piece `k div n`. -/
theorem getD_flatMap_of_length {α β : Type} {f : α → List β} {n : Nat} (hf : ∀ x, (f x).length = n) (a : α) (b : β)
    {xs : List α} {k : Nat} (hk : k < xs.length * n) :
    (xs.flatMap f).getD k b = (f (xs.getD (k / n) a)).getD (k % n) b := by
  induction xs generalizing k with
  | nil => simp at hk
  | cons x xs ih =>
    rw [List.length_cons, Nat.succ_mul] at hk
    rw [List.flatMap_cons]
    by_cases hkn : k < n
    · rw [List.getD_append _ _ _ _ (by rwa [hf]), Nat.div_eq_of_lt hkn, Nat.mod_eq_of_lt hkn, List.getD_cons_zero]
    · have hle : n ≤ k := Nat.le_of_not_lt hkn
      have hpos : 0 < n := Nat.pos_of_ne_zero fun h0 => by simp [h0] at hk
      have hdiv : k / n = (k - n) / n + 1 := Nat.div_eq_sub_div hpos hle
      rw [List.getD_append_right _ _ _ _ (by rwa [hf]), hf, ih (by omega), hdiv, List.getD_cons_succ,
        Nat.mod_eq_sub_mod hle]

@[simp] theorem serialize_length (v : Variant) (h : Words8 v.w) : (serialize v h).length = digestBytes v := by
  cases v <;> simp [serialize, Words8.toList, Variant.wb, digestBytes]

theorem digestBytes_eq_words (v : Variant) : digestBytes v = 8 * v.wb := by cases v <;> rfl

theorem digestBytes_eq (v : Variant) : digestBytes v = if v = .sha256 then 32 else 64 := by cases v <;> rfl

/-- R250: byte `k` is byte `k mod wb` of word `k div wb`. -/
theorem serialize_getD {v : Variant} (h : Words8 v.w) {k : Nat} (hk : k < 8 * v.wb) :
    (serialize v h).getD k 0 = (toBE v.wb (h.toList.getD (k / v.wb) 0).toNat).getD (k % v.wb) 0 :=
  getD_flatMap_of_length (f := fun x : Word v => toBE v.wb x.toNat) (xs := h.toList) (fun _ => toBE_length ..) 0 0 hk

/-- Settles O46: the words are pieces of `wb` bytes. -/
theorem digestBytesAreTheWordsInOrder : Obligations.DigestBytesAreTheWordsInOrder := fun v h =>
  ⟨(serialize_length v h).trans (digestBytes_eq v), (serialize_length v h).trans (digestBytes_eq_words v),
    fun _ => serialize_getD h⟩

/-- Settles O47: in Finalized the invariant has `dout` hold SERIALIZE of eight words of the variant `var`. -/
theorem digestLengthDependsOnlyOnTheVariant : Obligations.DigestLengthDependsOnlyOnTheVariant := by
  intro s hi hst
  obtain ⟨-, hfit⟩ := hi.fits (by simp [hst])
  rw [hst] at hfit
  obtain ⟨v, m, hvar, -, -, -, -, hdout⟩ := hfit
  have hlen : (messageDigest v m).length = digestBytes v := serialize_length v _
  refine ⟨_, hdout, ?_⟩
  cases v with
  | sha256 => exact .inl ⟨hvar, hlen⟩
  | sha512 => exact .inr ⟨hvar, hlen⟩

/-! ### CALC -/

theorem oneShot_length (v : Variant) (m : List Byte) : (oneShot v m).length = (updateNChunks m).length + 2 := by
  simp [oneShot, hashChunks]

theorem statusOf_finalized (v : Variant) :
    statusOf 3 (variantNumber v) 0 0 = if v = .sha256 then 0x00000003 else 0x0000000b := by cases v <;> rfl

/-- Settles O39: CALC is a run over the chunks of UPDATEN, which put together are the message. -/
theorem oneShotReturnsTheMessageDigest : Obligations.OneShotReturnsTheMessageDigest := by
  intro v m s hm
  obtain ⟨u, hrun, hst, -, hdout, -, hresp⟩ := digestIsTheSameForEveryChunking v (updateNChunks m) s []
    (fun _ => updateNChunks_length_le) (by rw [updateNChunks_flatten]; omega)
  rw [updateNChunks_flatten] at hdout hresp
  rw [List.append_nil, ← oneShot_length v m] at hrun
  exact ⟨u, hrun, hst, hdout, statusOf_finalized v ▸ hresp⟩

end Sys2Proof.Machine
end

section
/-! The host's test-vector literals and its comparison of digests (45_digest_and_oneshot.md R252-R254). -/

namespace Sys2Proof.Machine

/-! ### Characters and pairs -/

theorem hexDigit_eq_none_iff (c : Char) :
    hexDigit c = none ↔ ¬ ('0' ≤ c ∧ c ≤ '9' ∨ 'a' ≤ c ∧ c ≤ 'f' ∨ 'A' ≤ c ∧ c ≤ 'F') := by
  simp only [hexDigit, Char.le_def, UInt32.le_iff_toNat_le]
  change _ ↔ ¬ (48 ≤ c.toNat ∧ c.toNat ≤ 57 ∨ 97 ≤ c.toNat ∧ c.toNat ≤ 102 ∨ 65 ≤ c.toNat ∧ c.toNat ≤ 70)
  split_ifs <;> simp <;> omega

theorem hexDigit_toUpper_hexChar {n : Nat} (h : n < 16) : hexDigit (hexChar n).toUpper = some n := by
  interval_cases n <;> decide

theorem hexByte_eq_none_iff {hi lo : Char} : hexByte hi lo = none ↔ hexDigit hi = none ∨ hexDigit lo = none := by
  cases hhi : hexDigit hi <;> cases hlo : hexDigit lo <;> simp [hexByte, hhi, hlo]

theorem hexByte_of_digits {hi lo : Char} (b : Byte) (hhi : hexDigit hi = some (b.toNat / 16))
    (hlo : hexDigit lo = some (b.toNat % 16)) : hexByte hi lo = some b := by
  simp [hexByte, hhi, hlo, Nat.div_add_mod]

/-! ### Strings of pairs -/

theorem hexPairs_cons_cons (hi lo : Char) (cs : List Char) :
    hexPairs (hi :: lo :: cs) = (hexByte hi lo).bind fun b => (hexPairs cs).map (b :: ·) := by
  rw [hexPairs]
  cases hexByte hi lo <;> cases hexPairs cs <;> rfl

theorem length_of_hexPairs_eq_some {cs : List Char} {d : List Byte} (h : hexPairs cs = some d) :
    cs.length = 2 * d.length := by
  induction cs using List.twoStepInduction generalizing d with
  | nil => simp_all [hexPairs]
  | singleton c => simp [hexPairs] at h
  | cons_cons hi lo cs ih =>
    rw [hexPairs_cons_cons, Option.bind_eq_some_iff] at h
    obtain ⟨b, -, h⟩ := h
    obtain ⟨bs, hbs, rfl⟩ := Option.map_eq_some_iff.1 h
    simp only [List.length_cons, ih hbs]
    omega

/-- A string of whole pairs fails to parse exactly at a character that is no digit. -/
theorem hexPairs_eq_none_iff {cs : List Char} (h : Even cs.length) :
    hexPairs cs = none ↔ ∃ c ∈ cs, hexDigit c = none := by
  induction cs using List.twoStepInduction with
  | nil => simp [hexPairs]
  | singleton c => simp at h
  | cons_cons hi lo cs ih =>
    have hcs : Even cs.length := by simpa [Nat.even_add_one] using h
    have hcons : hexPairs (hi :: lo :: cs) = none ↔ hexByte hi lo = none ∨ hexPairs cs = none := by
      rw [hexPairs_cons_cons]
      cases hexByte hi lo <;> simp
    simp only [hcons, hexByte_eq_none_iff, ih hcs, List.exists_mem_cons_iff, or_assoc]

/-! ### Literals -/

theorem parseLiteral_eq_ok_iff {v : Variant} {cs : List Char} {d : List Byte} :
    parseLiteral v cs = .ok d ↔ cs.length = 2 * digestBytes v ∧ hexPairs cs = some d := by
  by_cases hlen : cs.length = 2 * digestBytes v
  · cases hcs : hexPairs cs <;> simp [parseLiteral, hlen, hcs]
  · simp [parseLiteral, hlen]

theorem parseLiteral_eq_error_iff {v : Variant} {cs : List Char} :
    parseLiteral v cs = .error .invalidEncoding ↔ cs.length ≠ 2 * digestBytes v ∨ hexPairs cs = none := by
  by_cases hlen : cs.length = 2 * digestBytes v
  · cases hcs : hexPairs cs <;> simp [parseLiteral, hlen, hcs]
  · simp [parseLiteral, hlen]

/-- Settles O57: a string of the right length has whole pairs, so it fails only at a character that is no digit. -/
theorem malformedLiteralsAreRejected : Obligations.MalformedLiteralsAreRejected := by
  intro v cs
  simp only [← digestBytes_eq, ← hexDigit_eq_none_iff, parseLiteral_eq_error_iff, parseLiteral_eq_ok_iff]
  constructor
  · by_cases hlen : cs.length = 2 * digestBytes v
    · rw [hexPairs_eq_none_iff (hlen ▸ even_two_mul _)]
    · simp [hlen]
  · rintro d ⟨hlen, hd⟩
    have := length_of_hexPairs_eq_some hd
    omega

theorem hexText_length (d : List Byte) : (hexText d).length = 2 * d.length := by
  induction d with
  | nil => rfl
  | cons b d ih => simp [hexText, ih, Nat.mul_add]

/-- The text of a byte string parses back through any change of case `f` that keeps the value of every digit. -/
theorem hexPairs_map_hexText {f : Char → Char} (hf : ∀ n < 16, hexDigit (f (hexChar n)) = some n) (d : List Byte) :
    hexPairs ((hexText d).map f) = some d := by
  induction d with
  | nil => rfl
  | cons b d ih =>
    have hb := b.isLt
    have hbyte : hexByte (f (hexChar (b.toNat / 16))) (f (hexChar (b.toNat % 16))) = some b :=
      hexByte_of_digits b (hf _ (by omega)) (hf _ (by omega))
    simp [hexText, hexPairs_cons_cons, hbyte, ih]

theorem parseLiteral_map_hexText {v : Variant} {d : List Byte} (hd : d.length = digestBytes v) {f : Char → Char}
    (hf : ∀ n < 16, hexDigit (f (hexChar n)) = some n) : parseLiteral v ((hexText d).map f) = .ok d :=
  parseLiteral_eq_ok_iff.2 ⟨by rw [List.length_map, hexText_length, hd], hexPairs_map_hexText hf d⟩

/-- Settles O56: neither case of letters changes the value of a digit. -/
theorem digestLiteralsParse : Obligations.DigestLiteralsParse := fun _ d hd =>
  ⟨by simpa using parseLiteral_map_hexText hd (f := id) fun _ => hexDigit_hexChar,
    parseLiteral_map_hexText hd fun _ => hexDigit_toUpper_hexChar⟩

/-! ### Comparison -/

theorem digestEqual_iff_eq (x y : List Byte) : digestEqual x y = true ↔ x = y := by
  induction x generalizing y with
  | nil => cases y <;> simp [digestEqual]
  | cons a x ih => cases y <;> simp [digestEqual, ih]

/-- Settles O58: the comparison decides equality of byte strings, which is that of length and every byte. -/
theorem digestEqualityIsBytewise : Obligations.DigestEqualityIsBytewise := by
  intro x y
  rw [digestEqual_iff_eq, List.ext_getElem_iff]
  refine and_congr_right fun hlen => forall_congr' fun k => ?_
  constructor
  · intro h hk
    rw [List.getD_eq_getElem _ _ hk, List.getD_eq_getElem _ _ (hlen ▸ hk), h]
  · intro h hx hy
    rw [← List.getD_eq_getElem _ 0 hx, ← List.getD_eq_getElem _ 0 hy, h hx]

end Sys2Proof.Machine
end

section
/-! Faults (60_exceptions.md): the fault entry (R302, R303), what Faulted ignores (R304), how it is left (R305, R306),
and the first fault in the order of R307. -/

namespace Sys2Proof.Machine

/-! ### The status word in Faulted -/

/-- R304: a status word read in Faulted has STATE 4 and FAULT the stored code. -/
theorem statusWord_fields_of_faulted {s : State} (h : s.st = .faulted) :
    (statusWord s).toNat % 8 = 4 ∧ (statusWord s).toNat / 16 % 16 = faultNumber s.fcode := by
  have hvar := (variantStatus s.var).isLt
  have hfault := (faultCodeBits s.fcode).isLt
  have hcode : (stateCode s.st).toNat = 4 := by rw [stateCode_toNat, h]; rfl
  rw [statusWord_toNat, hcode, ← faultCodeBits_toNat]
  omega

/-- Settles O18: the response shows the status word of the state after fault entry, which is Faulted. -/
theorem faultEntryKeepsTheFirstFault : Obligations.FaultEntryKeepsTheFirstFault := by
  intro c s
  refine ⟨fun hst => ⟨statusWord (s.enterFault c), ?_, ?_⟩,
    fun hst => ⟨statusWord s, raiseFault_of_faulted hst, statusWord_fields_of_faulted hst⟩⟩
  · rw [raiseFault_eq, s.enterFault_of_ne c hst]
    rfl
  · simpa [s.enterFault_fcode, hst] using statusWord_fields_of_faulted (s.enterFault_st c)

/-! ### Entering Faulted -/

theorem exec_into_faulted {i : Instr} {s u : State} (hs : s.st ≠ .faulted) (e : exec i s = .next u)
    (hu : u.st = .faulted) : ∃ c, c ≠ .noFault ∧ u = s.faultedWith c := by
  rcases exec_next e with ⟨v, -, rfl⟩ | ⟨p, v, h, b, c, -, -, -, -, -, -, -, rfl⟩ |
    ⟨v, h, b, c, -, -, -, -, -, -, rfl⟩ | ⟨d, -, -, -, rfl⟩ | ⟨-, rfl⟩ | ⟨-, -, hst, -⟩ | ⟨-, -, -, hfault⟩
  · exact nomatch hu
  · exact nomatch hu
  · exact nomatch hu
  · exact absurd hu hs
  · exact absurd hu hs
  · exact absurd hst hs
  · exact hfault

/-- A step enters Faulted by fault entry only, on the state with the event received. -/
theorem step_into_faulted {s u : State} (hs : s.st ≠ .faulted) (e : step s = .next u) (hu : u.st = .faulted) :
    ∃ rest c, c ≠ .noFault ∧ u = (s.withInput rest).faultedWith c := by
  rcases step_next_event e with ⟨-, rfl⟩ | ⟨ev, rest, -, -, rfl⟩ | ⟨t, rest, -, ⟨i, -, e⟩ | ⟨er, c, -, hc, hfault⟩⟩
  · exact absurd hu hs
  · exact nomatch hu
  · exact ⟨rest, exec_into_faulted (s := s.withInput rest) hs e hu⟩
  · exact ⟨rest, c, hc, hfault⟩

/-- Settles O19: the fields of `faultedWith`. -/
theorem faultingCommandWritesOnlyStateAndCode : Obligations.FaultingCommandWritesOnlyStateAndCode := by
  intro s u hs e hu
  obtain ⟨rest, c, hc, rfl⟩ := step_into_faulted hs e hu
  refine ⟨rfl, rfl, rfl, rfl, rfl, ?_, _, rfl⟩
  rwa [State.faultedWith_fcode_of_ne _ c (show (s.withInput rest).st ≠ .faulted from hs)]

/-! ### In Faulted -/

/-- A well-formed word other than an UPDATE decodes with no payload. -/
theorem decode_of_payload_nil {t : Transaction} (hok : wordOk t.word = true) (hop : wordOp t.word ≠ 2)
    (hp : t.payload = []) : decode t = .ok (commandOf t) :=
  (decode_eq_ok_iff t _).2 ⟨hok, by rw [expectedPayload_of_ne hop, hp, List.length_nil], rfl⟩

/-- Settles O20: INIT and STATUS decode to their commands, and `execute_of_faulted` ignores the rest. -/
theorem faultedIgnoresAllButInitAndStatus : Obligations.FaultedIgnoresAllButInitAndStatus := by
  intro s t rest hin hst
  rw [step_command hin]
  refine ⟨fun hok hop hp => ?_, fun hok hop hp => ?_, fun hr => ⟨statusWord s, ?_, statusWord_fields_of_faulted hst⟩⟩
  · rw [execute_ok (decode_of_payload_nil hok (by omega) hp), commandOf, if_pos hop]
    rfl
  · rw [execute_ok (decode_of_payload_nil hok (by omega) hp), commandOf, hop]
    rfl
  · exact execute_of_faulted (s := s.withInput rest) hst hr

theorem exec_next_of_faulted {i : Instr} {s u : State} (hs : s.st = .faulted) (e : exec i s = .next u) :
    (∃ v, i = .init v ∧ u = (s.startComputation v).withResponse []) ∨ u = s.withResponse [] := by
  by_cases hinit : ∃ v, i = .init v
  · obtain ⟨v, rfl⟩ := hinit
    exact .inl ⟨v, rfl, execInit_next e⟩
  · by_cases hstatus : i = .status
    · subst hstatus
      exact .inr (execStatus_next e)
    · rw [exec_of_faulted hs (not_exists.1 hinit) hstatus] at e
      exact .inr (respond_next e)

/-- Settles O22: a command other than INIT, and a rejected transaction, only respond in Faulted. -/
theorem faultedIsLeftOnlyByInitOrReset : Obligations.FaultedIsLeftOnlyByInitOrReset := by
  intro s u hst e
  rcases step_next_event e with ⟨-, rfl⟩ | ⟨ev, rest, hin, hev, rfl⟩ |
    ⟨t, rest, hin, ⟨i, hd, e⟩ | ⟨er, c, -, -, rfl⟩⟩
  · exact .inl ⟨hst, rfl⟩
  · exact .inr (.inr ⟨rfl, rfl, ev, rest, hin, hev⟩)
  · rcases exec_next_of_faulted (s := s.withInput rest) hst e with ⟨v, rfl, rfl⟩ | rfl
    · exact .inr (.inl ⟨rfl, rfl, t, v, rest, hin, hd⟩)
    · exact .inl ⟨hst, rfl⟩
  · rw [State.faultedWith, State.enterFault_of_eq _ c (show (s.withInput rest).st = .faulted from hst)]
    exact .inl ⟨hst, rfl⟩

/-! ### The first fault in the order of priority -/

/-- The fault the command `i` raises outside Faulted, the state checks before the overflow check (60_exceptions.md R307,
R308). -/
def commandFault (s : State) : Instr → Option FaultCode
  | .init _ => none
  | .update p =>
    if s.st = .idle then some .notInitialised
    else if s.st = .finalized then some .useAfterFinalize
    else if (s.cnt.getD 0).toNat + 8 * p.length > Config.counterMax then some .lengthOverflow
    else none
  | .finalize =>
    if s.st = .idle then some .notInitialised
    else if s.st = .finalized then some .useAfterFinalize
    else none
  | .readDigest => if s.st = .finalized then none else some .digestUnavailable
  | .status => none

/-- Past the two checks of the transaction, the fault it raises is that of its command. -/
theorem raisedFault_eq_commandFault (s : State) {t : Transaction} (hok : wordOk t.word = true)
    (hlen : t.payload.length = expectedPayload t.word) : raisedFault s t = commandFault s (commandOf t) := by
  rw [raisedFault, if_neg (not_not.2 hok), if_neg (not_not.2 hlen)]
  by_cases hop : wordOp t.word = 2
  · have hcount : wordCount t.word = t.payload.length := by
      rw [hlen, expectedPayload_update hok hop, countField_toNat]
    simp [commandFault, commandOf, Config.counterMax, hop, hcount]
  · obtain e | e | e | e | e := wordOp_cases hok <;> simp [commandFault, commandOf, e] at hop ⊢

/-- What is left of a transaction that raises the fault `o`, or none. -/
def FaultOutcome (s u : State) : Option FaultCode → Prop
  | some c => u = s.faultedWith c
  | none => u.st ≠ .faulted

@[simp] theorem faultOutcome_some (s u : State) (c : FaultCode) :
    FaultOutcome s u (some c) ↔ u = s.faultedWith c := Iff.rfl

@[simp] theorem faultOutcome_none (s u : State) : FaultOutcome s u none ↔ u.st ≠ .faulted := Iff.rfl

theorem exec_faultOutcome {i : Instr} {s u : State} (hs : s.st ≠ .faulted) (e : exec i s = .next u) :
    FaultOutcome s u (commandFault s i) := by
  cases i with
  | init v => rw [execInit_next e]; exact nofun
  | update p =>
    rcases execUpdate_next e with ⟨hst, -⟩ | ⟨hst, hu⟩ | ⟨hst, hu⟩ | ⟨ho, v, h, b, c, -, -, -, hc, hcases⟩
    · exact absurd hst hs
    · simpa [commandFault, hst] using hu
    · simpa [commandFault, hst] using hu
    · have hopen : commandFault s (.update p) =
          if c.toNat + 8 * p.length > Config.counterMax then some .lengthOverflow else none := by
        rcases ho with hst | hst <;> simp [commandFault, hst, hc]
      rw [hopen]
      rcases hcases with ⟨hover, hu⟩ | ⟨hfits, rfl⟩
      · rwa [if_pos hover]
      · rw [if_neg (Nat.not_lt.2 hfits)]
        exact nofun
  | finalize =>
    rcases execFinalize_next e with ⟨hst, -⟩ | ⟨hst, hu⟩ | ⟨hst, hu⟩ | ⟨ho, v, h, b, c, -, -, -, -, rfl⟩
    · exact absurd hst hs
    · simpa [commandFault, hst] using hu
    · simpa [commandFault, hst] using hu
    · rcases ho with hst | hst <;> simp [commandFault, hst]
  | readDigest =>
    rcases execReadDigest_next e with ⟨hst, -⟩ | ⟨hst, d, -, rfl⟩ | ⟨hst, hu⟩
    · exact absurd hst hs
    · simp [commandFault, hst]
    · rcases hst with hst | hst | hst <;> simpa [commandFault, hst] using hu
  | status => rw [execStatus_next e]; exact hs

/-- R307 for a transaction outside Faulted. -/
theorem execute_faultOutcome {t : Transaction} {s u : State} (hs : s.st ≠ .faulted) (e : execute t s = .next u) :
    FaultOutcome s u (raisedFault s t) := by
  rw [execute_eq] at e
  split at e
  next hok =>
    rw [raisedFault, if_pos hok]
    exact raiseFault_next e
  next hok =>
    split at e
    next hlen =>
      rw [raisedFault, if_neg hok, if_pos hlen]
      exact raiseFault_next e
    next hlen =>
      rw [raisedFault_eq_commandFault s (not_not.1 hok) (not_not.1 hlen)]
      exact exec_faultOutcome hs e

/-- Settles O21: the step exists by O34, and `execute_faultOutcome` says how it ends; that `fcode` is 0 when it does not
fault is the invariant after it. -/
theorem firstFaultInPriorityIsReported : Obligations.FirstFaultInPriorityIsReported := by
  intro s t rest hi hin
  obtain ⟨u, hstep⟩ := noStepStopsUnderTheInvariant s hi
  have e : execute t (s.withInput rest) = .next u := (step_command hin).symm.trans hstep
  refine ⟨u, hstep, fun hst hr => ?_, fun hst => ?_⟩
  · rw [execute_of_faulted (s := s.withInput rest) hst hr] at e
    rw [respond_next e]
    exact ⟨hst, rfl⟩
  · have hout : FaultOutcome (s.withInput rest) u (raisedFault s t) :=
      execute_faultOutcome (s := s.withInput rest) hst e
    refine ⟨fun c hc => ?_, fun hnone => ?_⟩
    · rw [hc] at hout
      obtain rfl := hout
      exact ⟨State.faultedWith_st _ c, State.faultedWith_fcode_of_ne _ c hst⟩
    · rw [hnone] at hout
      exact ⟨hout, not_not.1 ((everyStepKeepsTheInvariant s u hi hstep).fcode_ne_iff.not.2 hout)⟩

end Sys2Proof.Machine
end

section
/-! Reset (70_reset_and_hazards.md): the context it gives and that nothing else enters Idle (R350), and a reset during a
command (R351). -/

namespace Sys2Proof.Machine

/-- The step on a reset of either kind: the event is taken, and the context reset. -/
theorem step_of_not_command {s : State} {e : HostEvent} {rest : List HostEvent} (hin : s.input = e :: rest)
    (he : ∀ t, e ≠ .command t) : step s = .next (s.withInput rest).resetContext := by
  rw [step_cons hin]
  cases e with
  | command t => exact absurd rfl (he t)
  | reset => rfl
  | resetDuring t => rfl

theorem statusWord_resetContext (s : State) : statusWord s.resetContext = 0 :=
  (statusWord_congr rfl rfl rfl rfl).trans statusWordLayout.1

/-- R350: of the arcs of the transition table, only a reset enters Idle. -/
theorem step_into_idle {s u : State} (e : step s = .next u) (hu : u.st = .idle) (hs : s.st ≠ .idle) :
    ∃ ev rest, s.input = ev :: rest ∧ ∀ t, ev ≠ .command t := by
  rcases stateTransitionsAreThoseOfTheTable s u e with ⟨-, hst⟩ | ⟨ev, rest, hin, ⟨hev, -⟩ | ⟨t, -, harc⟩⟩
  · exact absurd (hst.symm.trans hu) hs
  · exact ⟨ev, rest, hin, hev⟩
  · rcases harc with ⟨v, -, hst⟩ | ⟨p, -, -, hst⟩ | ⟨-, -, hst⟩ | ⟨-, -, hst⟩ | ⟨-, hst⟩ | ⟨-, hst, -⟩ | ⟨-, hst, -⟩ <;>
      simp [hst, hs] at hu

/-- Settles O23: the fields of `resetContext`, and `step_into_idle`. -/
theorem resetGivesIdle : Obligations.ResetGivesIdle :=
  ⟨fun s _ rest hin he => ⟨(s.withInput rest).resetContext, step_of_not_command hin he, rfl, rfl, rfl, rfl, rfl, rfl,
    rfl, statusWord_resetContext _⟩, fun _ _ => step_into_idle⟩

/-- Settles O24: both steps are `step_of_not_command`, which does not read which kind of reset it was. -/
theorem resetDuringACommandLeavesNoTrace : Obligations.ResetDuringACommandLeavesNoTrace := by
  intro s t rest
  have hduring : step { s with input := .resetDuring t :: rest } = .next (s.withInput rest).resetContext :=
    step_of_not_command rfl nofun
  have hbetween : step { s with input := .reset :: rest } = .next (s.withInput rest).resetContext :=
    step_of_not_command rfl nofun
  exact ⟨hduring.trans hbetween.symm, _, hduring, rfl, ⟨rfl, rfl, rfl, rfl, rfl⟩, rfl, rfl⟩

end Sys2Proof.Machine
end

section
/-! The datapath (40_helpers.md R100-R108, 41_compression.md, 42_schedule.md): the helpers bit by bit, the four mixes as
sums of linear maps, where a schedule starts, and COMPRESS as a sequence of registers. -/

namespace Sys2Proof.Machine

/-! ### Rotation, shift, choose and majority -/

theorem getLsbD_shr {w : Nat} (n i : Nat) (x : BitVec w) : (shr n x).getLsbD i = x.getLsbD (i + n) := by
  rw [shr, BitVec.getLsbD_ushiftRight, Nat.add_comm]

/-- R101: the low `w - n` bits come from the right shift, the others from the left shift. -/
theorem getLsbD_rotr {w n i : Nat} (x : BitVec w) (hn : n < w) (hi : i < w) :
    (rotr n x).getLsbD i = x.getLsbD ((i + n) % w) := by
  rw [rotr, BitVec.getLsbD_or, BitVec.getLsbD_ushiftRight, BitVec.getLsbD_shiftLeft]
  by_cases h : i + n < w
  · rw [Nat.mod_eq_of_lt h, Nat.add_comm]
    simp [show i < w - n by omega]
  · have hmod : (i + n) % w = i - (w - n) := by
      rw [Nat.mod_eq_sub_mod (by omega), Nat.mod_eq_of_lt (by omega)]
      omega
    have hhigh : x.getLsbD (n + i) = false := x.getLsbD_of_ge _ (by omega)
    simp [hmod, hhigh, hi, show ¬ i < w - n by omega]

/-- Settles O48: a bit of SHR that lies past the word is 0 already in the word. -/
theorem rotateAndShiftMoveBits : Obligations.RotateAndShiftMoveBits := by
  intro w n i x _ hn hi
  refine ⟨getLsbD_rotr x hn hi, ?_⟩
  rw [getLsbD_shr]
  by_cases h : i + n < w
  · simp [h]
  · simp [h, x.getLsbD_of_ge (i + n) (by omega)]

theorem getLsbD_ch {w i : Nat} (x y z : BitVec w) (hi : i < w) :
    (ch x y z).getLsbD i = if x.getLsbD i then y.getLsbD i else z.getLsbD i := by
  simp only [ch, BitVec.getLsbD_xor, BitVec.getLsbD_and, BitVec.getLsbD_not, hi, decide_true, Bool.true_and]
  cases x.getLsbD i <;> simp

theorem getLsbD_maj {w : Nat} (i : Nat) (x y z : BitVec w) :
    (maj x y z).getLsbD i = decide (2 ≤ (x.getLsbD i).toNat + (y.getLsbD i).toNat + (z.getLsbD i).toNat) := by
  simp only [maj, BitVec.getLsbD_xor, BitVec.getLsbD_and]
  generalize x.getLsbD i = a, y.getLsbD i = b, z.getLsbD i = c
  revert a b c
  decide

/-- Settles O49: `getLsbD_ch` and `getLsbD_maj`. -/
theorem chooseAndMajorityActBitwise : Obligations.ChooseAndMajorityActBitwise := fun _ i x y z hi =>
  ⟨getLsbD_ch x y z hi, getLsbD_maj i x y z⟩

/-! ### The mixes -/

/-- Linear over XOR. -/
def XorLinear {w : Nat} (f : BitVec w → BitVec w) : Prop := ∀ x y, f (x ^^^ y) = f x ^^^ f y

theorem XorLinear.xor {w : Nat} {f g : BitVec w → BitVec w} (hf : XorLinear f) (hg : XorLinear g) :
    XorLinear fun x => f x ^^^ g x := by
  intro x y
  change f (x ^^^ y) ^^^ g (x ^^^ y) = (f x ^^^ g x) ^^^ (f y ^^^ g y)
  rw [hf, hg]
  ac_rfl

theorem XorLinear.map_zero {w : Nat} {f : BitVec w → BitVec w} (hf : XorLinear f) : f 0 = 0 := by
  have h : f (0 ^^^ 0) = f 0 ^^^ f 0 := hf 0 0
  rwa [BitVec.xor_self, BitVec.xor_self] at h

theorem xorLinear_shr {w : Nat} (n : Nat) : XorLinear (shr n : BitVec w → BitVec w) := fun x y =>
  BitVec.ushiftRight_xor_distrib x y n

theorem xorLinear_rotr {w n : Nat} (hn : n < w) : XorLinear (rotr n : BitVec w → BitVec w) := by
  intro x y
  refine BitVec.eq_of_getLsbD_eq fun i hi => ?_
  simp only [BitVec.getLsbD_xor, getLsbD_rotr _ hn hi]

/-- Three rotations, as in R105 and R106. -/
theorem xorLinear_rotr_rotr_rotr {w a b c : Nat} (ha : a < w) (hb : b < w) (hc : c < w) :
    XorLinear fun x : BitVec w => rotr a x ^^^ rotr b x ^^^ rotr c x :=
  ((xorLinear_rotr ha).xor (xorLinear_rotr hb)).xor (xorLinear_rotr hc)

/-- Two rotations and a shift, as in R107 and R108. -/
theorem xorLinear_rotr_rotr_shr {w a b : Nat} (ha : a < w) (hb : b < w) (c : Nat) :
    XorLinear fun x : BitVec w => rotr a x ^^^ rotr b x ^^^ shr c x :=
  ((xorLinear_rotr ha).xor (xorLinear_rotr hb)).xor (xorLinear_shr c)

theorem xorLinear_bigSigma0 (v : Variant) : XorLinear (bigSigma0 v) := by
  cases v with
  | sha256 => exact xorLinear_rotr_rotr_rotr (by decide) (by decide) (by decide)
  | sha512 => exact xorLinear_rotr_rotr_rotr (by decide) (by decide) (by decide)

theorem xorLinear_bigSigma1 (v : Variant) : XorLinear (bigSigma1 v) := by
  cases v with
  | sha256 => exact xorLinear_rotr_rotr_rotr (by decide) (by decide) (by decide)
  | sha512 => exact xorLinear_rotr_rotr_rotr (by decide) (by decide) (by decide)

theorem xorLinear_smallSigma0 (v : Variant) : XorLinear (smallSigma0 v) := by
  cases v with
  | sha256 => exact xorLinear_rotr_rotr_shr (by decide) (by decide) 3
  | sha512 => exact xorLinear_rotr_rotr_shr (by decide) (by decide) 7

theorem xorLinear_smallSigma1 (v : Variant) : XorLinear (smallSigma1 v) := by
  cases v with
  | sha256 => exact xorLinear_rotr_rotr_shr (by decide) (by decide) 10
  | sha512 => exact xorLinear_rotr_rotr_shr (by decide) (by decide) 6

/-- Settles O50: each mix is a sum of rotations and shifts, which are linear; on all ones by evaluation. -/
theorem sigmaMixesAreLinear : Obligations.SigmaMixesAreLinear := by
  intro v
  refine ⟨fun x y => ⟨xorLinear_bigSigma0 v x y, xorLinear_bigSigma1 v x y, xorLinear_smallSigma0 v x y,
    xorLinear_smallSigma1 v x y⟩, ?_⟩
  cases v <;> decide

/-! ### The start of a schedule -/

/-- R151: before any extension the words, the newest first, are the block's reversed. -/
theorem expand_getD_of_lt {v : Variant} {m : List (Word v)} (hm : m.length = 16) {t : Nat} (ht : t < 16) :
    (expand v m).getD t 0 = m.getD t 0 := by
  have hword : 15 + 0 - (15 - t) = t := by omega
  have hblock : m.length - 1 - (15 - t) = t := by omega
  calc (expand v m).getD t 0
      = m.reverse.getD (15 - t) 0 := by
        have hstart := expand_getD hm (n := 0) (k := 15 - t) (rounds_ge v) (by omega)
        rwa [hword] at hstart
    _ = m.getD t 0 := by
        rw [List.getD_eq_getElem?_getD, List.getElem?_reverse (by omega), hblock, List.getD_eq_getElem?_getD]

theorem getD_eq_zero {w : Nat} {l : List (BitVec w)} (h : ∀ x ∈ l, x = 0) (k : Nat) : l.getD k 0 = 0 := by
  by_cases hk : k < l.length
  · rw [List.getD_eq_getElem _ _ hk]
    exact h _ (List.getElem_mem hk)
  · exact List.getD_eq_default _ _ (Nat.le_of_not_lt hk)

theorem nextScheduleWord_zero {v : Variant} {l : List (Word v)} (h : ∀ x ∈ l, x = 0) : nextScheduleWord v l = 0 := by
  simp only [nextScheduleWord, getD_eq_zero h, (xorLinear_smallSigma0 v).map_zero,
    (xorLinear_smallSigma1 v).map_zero, add_zero]

theorem extendSchedule_zero {v : Variant} (n : Nat) {l : List (Word v)} (h : ∀ x ∈ l, x = 0) :
    ∀ x ∈ extendSchedule v n l, x = 0 := by
  induction n with
  | zero => exact h
  | succ n ih =>
    rw [extendSchedule_succ]
    exact List.forall_mem_cons.2 ⟨nextScheduleWord_zero ih, ih⟩

/-- Settles O52: extending keeps the block's words, and extends zeros by zeros. -/
theorem scheduleStartsWithTheBlock : Obligations.ScheduleStartsWithTheBlock := by
  intro v m hm
  refine ⟨fun _ => expand_getD_of_lt hm, fun hzero x hx => ?_⟩
  exact extendSchedule_zero _ (fun y hy => hzero y (List.mem_reverse.1 hy)) x (List.mem_reverse.1 hx)

/-! ### COMPRESS and the tables -/

theorem runRounds_zero (v : Variant) (h : Words8 v.w) (w : List (Word v)) : runRounds v 0 h w = h := rfl

theorem runRounds_succ (v : Variant) (n : Nat) (h : Words8 v.w) (w : List (Word v)) :
    runRounds v (n + 1) h w = round v n (runRounds v n h w) (w.getD n 0) := by
  simp [runRounds, List.range_succ]

/-- Settles O53: the sequence is the registers after `n` rounds. -/
theorem compressionRunsEveryRound : Obligations.CompressionRunsEveryRound := by
  intro v h w
  rw [← rounds_eq]
  exact ⟨fun n => runRounds v n h w, runRounds_zero v h w, fun t _ => runRounds_succ v t h w, rfl⟩

/-- Settles O54: by evaluation of the constant tables. -/
theorem constantTablesAgreeAcrossVariants : Obligations.ConstantTablesAgreeAcrossVariants := by
  unfold Obligations.ConstantTablesAgreeAcrossVariants
  decide

end Sys2Proof.Machine
end

section
/-! The status word read by a host (93_implementation_defined.md I6-I8): each field of `packStatus` is read back, and the
codes that no state and no fault has are rejected. -/

namespace Sys2Proof.Machine

/-! ### The two codes -/

@[simp] theorem coreStateOfCode_stateCode (st : CoreState) : coreStateOfCode (stateCode st) = some st := by
  cases st <;> decide

@[simp] theorem faultCodeOfBits_faultCodeBits (c : FaultCode) : faultCodeOfBits (faultCodeBits c) = some c := by
  cases c <;> decide

theorem coreStateOfCode_eq_none_iff (c : BitVec 3) : coreStateOfCode c = none ↔ 5 ≤ c.toNat := by
  revert c
  decide

theorem faultCodeOfBits_eq_none_iff (c : BitVec 4) : faultCodeOfBits c = none ↔ 7 ≤ c.toNat := by
  revert c
  decide

/-! ### The fields of a packed word -/

section
variable (state : BitVec 3) (variant : BitVec 1) (fault : BitVec 4) (buflen : BitVec 7)

/-- A field of a packed word, as a number. -/
theorem toNat_extractLsb'_packStatus (start len : Nat) :
    ((packStatus state variant fault buflen).extractLsb' start len).toNat =
      (state.toNat + 8 * variant.toNat + 16 * fault.toNat + 256 * buflen.toNat) / 2 ^ start % 2 ^ len := by
  rw [BitVec.extractLsb'_toNat, packStatus_toNat, Nat.shiftRight_eq_div_pow]

theorem packStatus_fields :
    (packStatus state variant fault buflen).extractLsb' 0 3 = state ∧
    (packStatus state variant fault buflen).extractLsb' 3 1 = variant ∧
    (packStatus state variant fault buflen).extractLsb' 4 4 = fault ∧
    (packStatus state variant fault buflen).extractLsb' 8 7 = buflen ∧
    (packStatus state variant fault buflen).extractLsb' 15 17 = 0#17 := by
  have hstate := state.isLt
  have hvariant := variant.isLt
  have hfault := fault.isLt
  have hbuflen := buflen.isLt
  simp only [← BitVec.toNat_inj, toNat_extractLsb'_packStatus, BitVec.toNat_ofNat]
  omega

end

/-! ### Decoding -/

theorem decodeStatus_statusWord (s : State) :
    decodeStatus (statusWord s) = some ⟨s.st, variantStatus s.var, s.fcode, bufferStatus s.buf⟩ := by
  obtain ⟨hstate, hvariant, hfault, hbuflen, hreserved⟩ :=
    packStatus_fields (stateCode s.st) (variantStatus s.var) (faultCodeBits s.fcode) (bufferStatus s.buf)
  simp [decodeStatus, statusWord, hstate, hvariant, hfault, hbuflen, hreserved]

theorem decodeStatus_eq_none_iff_fields (sw : BitVec 32) :
    decodeStatus sw = none ↔
      sw.extractLsb' 15 17 ≠ 0#17 ∨ coreStateOfCode (sw.extractLsb' 0 3) = none ∨
        faultCodeOfBits (sw.extractLsb' 4 4) = none := by
  rw [decodeStatus]
  by_cases hreserved : sw.extractLsb' 15 17 = 0#17
  · cases coreStateOfCode (sw.extractLsb' 0 3) <;> cases faultCodeOfBits (sw.extractLsb' 4 4) <;> simp [hreserved]
  · simp [hreserved]

theorem reservedBits_eq_zero_iff (sw : BitVec 32) : sw.extractLsb' 15 17 = 0#17 ↔ sw.toNat < 2 ^ 15 := by
  have := sw.isLt
  rw [← BitVec.toNat_inj, BitVec.extractLsb'_toNat, Nat.shiftRight_eq_div_pow, BitVec.toNat_ofNat]
  omega

/-- Settles O28: the fields of a packed word are read back, and a word is rejected by a field of its own. -/
theorem statusWordsDecodeAndReservedValuesDoNot : Obligations.StatusWordsDecodeAndReservedValuesDoNot := by
  refine ⟨decodeStatus_statusWord, fun sw => ?_⟩
  rw [decodeStatus_eq_none_iff_fields, ne_eq, reservedBits_eq_zero_iff, Nat.not_lt, coreStateOfCode_eq_none_iff,
    faultCodeOfBits_eq_none_iff, BitVec.extractLsb'_toNat, BitVec.extractLsb'_toNat, Nat.shiftRight_zero,
    Nat.shiftRight_eq_div_pow]

end Sys2Proof.Machine
end

section
/-! What a step and a command leave unchanged (20_memory.md section 5, 10_state.md section 6), commands repeated, and
UPDATE and FINALIZE over a message, as cases of `Computing.exec_update` and `Computing.exec_finalize`. -/

namespace Sys2Proof.Machine

/-! ### Fault entry with its response: the fields it keeps -/

section
variable (s : State) (c : FaultCode)

@[simp] theorem State.faultedWith_H : (s.faultedWith c).H = s.H := rfl
@[simp] theorem State.faultedWith_buf : (s.faultedWith c).buf = s.buf := rfl
@[simp] theorem State.faultedWith_cnt : (s.faultedWith c).cnt = s.cnt := rfl
@[simp] theorem State.faultedWith_input : (s.faultedWith c).input = s.input := rfl

end

/-! ### One event of the channel -/

theorem exec_input {i : Instr} {s u : State} (e : exec i s = .next u) : u.input = s.input := by
  rcases exec_next e with ⟨v, -, rfl⟩ | ⟨p, v, h, b, c, -, -, -, -, -, -, -, rfl⟩ |
    ⟨v, h, b, c, -, -, -, -, -, -, rfl⟩ | ⟨d, -, -, -, rfl⟩ | ⟨-, rfl⟩ | ⟨-, -, -, rfl⟩ | ⟨-, -, -, c, -, rfl⟩ <;>
  rfl

/-- Settles O10: the event is taken before it runs, and no event changes the rest. -/
theorem stepTakesOneEventInOrder : Obligations.StepTakesOneEventInOrder := by
  intro s u e
  rcases step_next_event e with ⟨hin, rfl⟩ | ⟨ev, rest, hin, -, rfl⟩ |
    ⟨t, rest, hin, ⟨i, -, e⟩ | ⟨er, c, -, -, rfl⟩⟩
  · simp [hin]
  · simp [hin]
  · simp [hin, exec_input e]
  · simp [hin]

/-- Settles O8: EXECUTE of a transaction that decodes. -/
theorem stepRunsTheDecodedCommand : Obligations.StepRunsTheDecodedCommand := fun _ _ _ _ hin hd =>
  (step_command hin).trans (execute_ok hd _)

/-! ### Frames -/

/-- Settles O17: INIT, UPDATE and FINALIZE write the fields of their rows of the access table; every other end of a
command is a response, or a fault entry, which writes `st` and `fcode`. -/
theorem commandsChangeOnlyTheirOwnState : Obligations.CommandsChangeOnlyTheirOwnState := by
  intro i s u e
  obtain ⟨d, hresponses, -⟩ := exec_response e
  refine ⟨exec_input e, ⟨_, hresponses⟩, (exec_var e).2, ?_⟩
  rcases exec_next e with ⟨v, rfl, rfl⟩ | ⟨p, v, h, b, c, rfl, -, -, -, -, -, -, rfl⟩ |
    ⟨v, h, b, c, rfl, -, -, -, -, -, rfl⟩ | ⟨d, rfl, -, -, rfl⟩ | ⟨rfl, rfl⟩ | ⟨-, hstatus, hst, rfl⟩ |
    ⟨-, hstatus, hst, c, -, rfl⟩
  · simp -- INIT: every clause left excludes it
  · simp -- UPDATE: `dout` and `fcode`
  · simp -- FINALIZE: `cnt` and `fcode`
  · simp -- READ_DIGEST: a response changes none of the fields
  · simp -- STATUS: the same
  · simp -- ignored in Faulted: the same
  · simp [hstatus, hst] -- fault entry: all but `st` and `fcode`

/-! ### Commands repeated -/

theorem execAll_cons_of_next {i : Instr} {s u : State} (h : exec i s = .next u) (is : List Instr) :
    execAll (i :: is) s = execAll is u := by rw [execAll, h]

theorem exec_init_eq (v : Variant) (s : State) :
    exec (.init v) s = .next ((s.startComputation v).withResponse []) := respond_eq _ _

/-- A response does not change the status word of the next one. -/
theorem withResponse_withResponse (s : State) (d : List Byte) :
    (s.withResponse d).withResponse d =
      { s with responses := s.responses ++ [⟨statusWord s, d⟩, ⟨statusWord s, d⟩] } :=
  congrArg (fun l => ({ s with responses := l } : State))
    (List.append_assoc s.responses [⟨statusWord s, d⟩] [⟨statusWord s, d⟩])

/-- Settles O31: the second INIT starts the same computation, and READ_DIGEST keeps the status word it responds. -/
theorem repeatedInitAndReadChangeNothingMore : Obligations.RepeatedInitAndReadChangeNothingMore := by
  refine ⟨fun v s => ⟨(s.startComputation v).withResponse [], ⟨statusWord (s.startComputation v), []⟩,
    execAll_cons_of_next (exec_init_eq v s) [], ?_⟩, fun s d hst hd => ⟨⟨statusWord s, d⟩, ?_⟩⟩
  · rw [execAll_cons_of_next (exec_init_eq v s), execAll_cons_of_next (exec_init_eq v _)]
    rfl
  · have hagain : exec .readDigest (s.withResponse d) = respond d (s.withResponse d) :=
      exec_readDigest_of_finalized hst hd
    rw [execAll_cons_of_next (exec_readDigest_of_finalized hst hd), execAll_cons_of_next hagain,
      withResponse_withResponse]
    rfl

/-! ### UPDATE and FINALIZE over a message -/

/-- Settles O36: `Computing.exec_update`. -/
theorem updateExtendsTheMessage : Obligations.UpdateExtendsTheMessage := by
  intro v m p s hs ho hlen
  obtain ⟨u, he, hst, hu, -⟩ := hs.exec_update ho hlen
  exact ⟨u, he, hst, hu⟩

/-- Settles O37: `Computing.exec_finalize`, where `processBlocks_pad` says that the paddings agree. -/
theorem finalizeGivesTheDigestOfTheMessage : Obligations.FinalizeGivesTheDigestOfTheMessage := by
  intro v m s hs ho
  obtain ⟨u, he, hst, hu, -, -, hresponses⟩ := hs.exec_finalize ho
  exact ⟨u, _, he, hst, hu, hresponses⟩

end Sys2Proof.Machine
end
